-- ==== Sys2Proof/Word.lean ====
section
/-! DEFINITION. The widths of the machine: bytes, 16-bit words, 12-bit address operands, and the indexes of
the register file and of the keyboard (00_scope.md R6, 30_encoding.md R91, R93). -/

namespace Sys2Proof

/-- An 8-bit value: a byte of memory, a general register, a timer, an immediate `kk` (R6, R91). -/
abbrev Byte := BitVec 8

/-- A 16-bit value: `PC`, `I`, a stack slot, an instruction word (R6, R90). -/
abbrev Word := BitVec 16

/-- The 12-bit address operand `nnn` (R91). -/
abbrev Addr := BitVec 12

/-- The index of a general register: a 4-bit field, always in range (10_state.md R22). -/
abbrev Reg := Fin 16

/-- A virtual key index, 0..15 (10_state.md R35). -/
abbrev Key := Fin 16

/-- The 4-bit count operand `n`, 0..15 (R91, R93). -/
abbrev Count := Fin 16

end Sys2Proof
end

