-- ==== Sys2Proof/Config.lean ====
section
/-! DEFINITION. What an implementation fixes: the parameters the spec settles (00_scope.md R6), the record of
the parameters it leaves open (R7), and the free value of Cxkk (10_state.md R45). -/

namespace Sys2Proof

/-- `MEM_SIZE` (R6, 20_memory.md R60). -/
@[simp] abbrev memSize : Nat := 4096

/-- `LOAD_ADDR`, where a program is loaded and entered (R6). -/
@[simp] abbrev loadAddr : Nat := 0x200

/-- `FONT_BASE`, where the font glyphs lie (R6). -/
@[simp] abbrev fontBase : Nat := 0x000

/-- `STACK_DEPTH` (R6). -/
@[simp] abbrev stackDepth : Nat := 16

/-- `WIDTH` of the screen (R6). -/
@[simp] abbrev screenWidth : Nat := 64

/-- `HEIGHT` of the screen (R6). -/
@[simp] abbrev screenHeight : Nat := 32

/-- `TIMERS_DURING_KEY_WAIT` (R7, D12): whether TimerTick events are accepted while Fx0A waits. -/
inductive TimersDuringKeyWait where
  | run
  | freeze
  deriving DecidableEq, Repr

/-- The parameters of R7 that the core reads. `KEYMAP` is host-side (R39) and is an argument of the mapping
functions; `RNG` is `Config.randomByte`. DESIGN CHOICE (log 1): State carries this record unchanged, so that a
statement about every state is a statement about every choice of the parameters. -/
structure Config where
  /-- `GLYPH_HEIGHT`, bytes per font glyph (10_state.md R40). -/
  glyphHeight : Nat
  /-- `FONT`, the bytes written at `FONT_BASE` by Reset (R40). -/
  font : List Byte
  /-- `TIMERS_DURING_KEY_WAIT` (D12). -/
  timersDuringKeyWait : TimersDuringKeyWait
  deriving DecidableEq, Repr

/-- The byte the `k`-th draw of `RNG` gives: any value (R45, D18). A free value with no body (log 2). -/
opaque Config.randomByte : Nat → Byte

end Sys2Proof
end

