-- ==== Sys2Proof/Syntax.lean ====
section
/-! DEFINITION. The 34 instructions, one constructor per row of spec/opcode_table.json, in the table's order
(30_encoding.md R94, R95). -/

namespace Sys2Proof

/-- An instruction with the operand fields it uses (30_encoding.md R92). 8xy6 and 8xyE decode `y` and ignore it,
so their constructors hold `x` only, as R94's `SHR x` and `SHL x` do (log 10). -/
inductive Instr where
  /-- 00E0 CLS (R120). -/
  | cls
  /-- 00EE RET (R143). -/
  | ret
  /-- 1nnn JP addr (R144). -/
  | jp (nnn : Addr)
  /-- 2nnn CALL addr (R145). -/
  | call (nnn : Addr)
  /-- 3xkk SE Vx, byte (R147). -/
  | seImm (x : Reg) (kk : Byte)
  /-- 4xkk SNE Vx, byte (R148). -/
  | sneImm (x : Reg) (kk : Byte)
  /-- 5xy0 SE Vx, Vy (R149). -/
  | seReg (x y : Reg)
  /-- 6xkk LD Vx, byte (R172). -/
  | ldImm (x : Reg) (kk : Byte)
  /-- 7xkk ADD Vx, byte (R173). -/
  | addImm (x : Reg) (kk : Byte)
  /-- 8xy0 LD Vx, Vy (R174). -/
  | ldReg (x y : Reg)
  /-- 8xy1 OR Vx, Vy (R175). -/
  | orReg (x y : Reg)
  /-- 8xy2 AND Vx, Vy (R176). -/
  | andReg (x y : Reg)
  /-- 8xy3 XOR Vx, Vy (R177). -/
  | xorReg (x y : Reg)
  /-- 8xy4 ADD Vx, Vy (R178). -/
  | addReg (x y : Reg)
  /-- 8xy5 SUB Vx, Vy (R179). -/
  | sub (x y : Reg)
  /-- 8xy6 SHR Vx (R180). -/
  | shr (x : Reg)
  /-- 8xy7 SUBN Vx, Vy (R181). -/
  | subn (x y : Reg)
  /-- 8xyE SHL Vx (R182). -/
  | shl (x : Reg)
  /-- 9xy0 SNE Vx, Vy (R150). -/
  | sneReg (x y : Reg)
  /-- Annn LD I, addr (R200). -/
  | ldI (nnn : Addr)
  /-- Bnnn JP V0, addr (R152). -/
  | jpV0 (nnn : Addr)
  /-- Cxkk RND Vx, byte (R183). -/
  | rnd (x : Reg) (kk : Byte)
  /-- Dxyn DRW Vx, Vy, nibble (R121). -/
  | drw (x y : Reg) (n : Count)
  /-- Ex9E SKP Vx (R220). -/
  | skp (x : Reg)
  /-- ExA1 SKNP Vx (R221). -/
  | sknp (x : Reg)
  /-- Fx07 LD Vx, DT (R222). -/
  | ldVxDt (x : Reg)
  /-- Fx0A LD Vx, K (R223). -/
  | ldVxK (x : Reg)
  /-- Fx15 LD DT, Vx (R224). -/
  | ldDtVx (x : Reg)
  /-- Fx18 LD ST, Vx (R225). -/
  | ldStVx (x : Reg)
  /-- Fx1E ADD I, Vx (R201). -/
  | addI (x : Reg)
  /-- Fx29 LD F, Vx (R202). -/
  | ldF (x : Reg)
  /-- Fx33 LD B, Vx (R203). -/
  | ldB (x : Reg)
  /-- Fx55 LD [I], Vx (R204). -/
  | ldMemVx (x : Reg)
  /-- Fx65 LD Vx, [I] (R205). -/
  | ldVxMem (x : Reg)
  deriving DecidableEq, Repr

end Sys2Proof
end

