-- ==== Sys2Proof/WellFormed.lean ====
section
/-! DEFINITION. The checks on terms: an operand fits its field (30_encoding.md R91, R92), and the parameters
meet the requirement of 10_state.md R40. The types of Instr's fields already bound every operand, so every
instruction is well formed; the operand check is stated on raw operands, where it can fail. -/

namespace Sys2Proof

/-- One operand of an instruction: the width of its field and its value, both plain numbers. -/
structure Operand where
  width : Nat
  value : Nat
  deriving DecidableEq, Repr

/-- An operand is well formed when its value fits its field (R91). -/
def Operand.wellFormed (o : Operand) : Bool := decide (o.value < 2 ^ o.width)

/-- The operand shapes `nnn`, `xkk`, `xy` and `x` of R92 (`x_` is `x`). -/
def shapeNnn (nnn : Addr) : List Operand := [⟨12, nnn.toNat⟩]
@[inherit_doc shapeNnn] def shapeXkk (x : Reg) (kk : Byte) : List Operand := [⟨4, x.val⟩, ⟨8, kk.toNat⟩]
@[inherit_doc shapeNnn] def shapeXy (x y : Reg) : List Operand := [⟨4, x.val⟩, ⟨4, y.val⟩]
@[inherit_doc shapeNnn] def shapeX (x : Reg) : List Operand := [⟨4, x.val⟩]

/-- The operands of each instruction, by its format (R92). -/
def Instr.operands : Instr → List Operand
  | .cls | .ret => []
  | .jp nnn | .call nnn | .ldI nnn | .jpV0 nnn => shapeNnn nnn
  | .seImm x kk | .sneImm x kk | .ldImm x kk | .addImm x kk | .rnd x kk => shapeXkk x kk
  | .seReg x y | .sneReg x y | .ldReg x y | .orReg x y | .andReg x y | .xorReg x y
  | .addReg x y | .sub x y | .subn x y => shapeXy x y
  | .drw x y n => [⟨4, x.val⟩, ⟨4, y.val⟩, ⟨4, n.val⟩]
  | .shr x | .shl x | .skp x | .sknp x | .ldVxDt x | .ldVxK x | .ldDtVx x | .ldStVx x
  | .addI x | .ldF x | .ldB x | .ldMemVx x | .ldVxMem x => shapeX x

/-- An instruction is well formed when every operand fits its field. -/
def Instr.wellFormed (i : Instr) : Bool := i.operands.all Operand.wellFormed

/-- R40: the font fits in its region, and FONT has `GLYPH_HEIGHT` bytes for each of the sixteen glyphs. -/
def Config.wellFormed (c : Config) : Bool :=
  decide (16 * c.glyphHeight ≤ loadAddr) && decide (c.font.length = 16 * c.glyphHeight)

end Sys2Proof
end

