-- ==== Sys2Proof/Decode.lean ====
section
/-! DEFINITION. The instruction decoder (30_encoding.md R90 to R99), total on any bytes; after it the encoder,
written from the opcode map R95; then the map itself as rows of match and mask. -/

namespace Sys2Proof

/-! ## Fields of the word (R91) -/

/-- `op = w[15:12]`. -/
def fieldOp (w : Word) : BitVec 4 := w.extractLsb' 12 4
/-- `x = w[11:8]`. -/
def fieldX (w : Word) : Reg := (w.extractLsb' 8 4).toFin
/-- `y = w[7:4]`. -/
def fieldY (w : Word) : Reg := (w.extractLsb' 4 4).toFin
/-- `n = w[3:0]`. -/
def fieldN (w : Word) : Count := (w.extractLsb' 0 4).toFin
/-- `kk = w[7:0]`. -/
def fieldKk (w : Word) : Byte := w.extractLsb' 0 8
/-- `nnn = w[11:0]`. -/
def fieldNnn (w : Word) : Addr := w.extractLsb' 0 12

/-! ## Dispatch (R94) -/

/-- Family 0: only 00E0 and 00EE. -/
def decode0 (w : Word) : Option Instr :=
  if w = 0x00E0 then some .cls else if w = 0x00EE then some .ret else none

/-- Family 8, selected by the low nibble. -/
def decode8 (w : Word) : Option Instr :=
  let x := fieldX w
  let y := fieldY w
  match (fieldN w).val with
  | 0x0 => some (.ldReg x y)
  | 0x1 => some (.orReg x y)
  | 0x2 => some (.andReg x y)
  | 0x3 => some (.xorReg x y)
  | 0x4 => some (.addReg x y)
  | 0x5 => some (.sub x y)
  | 0x6 => some (.shr x)
  | 0x7 => some (.subn x y)
  | 0xE => some (.shl x)
  | _ => none

/-- Family E, selected by the low byte. -/
def decodeE (w : Word) : Option Instr :=
  let x := fieldX w
  if fieldKk w = 0x9E then some (.skp x)
  else if fieldKk w = 0xA1 then some (.sknp x)
  else none

/-- Family F, selected by the low byte. -/
def decodeF (w : Word) : Option Instr :=
  let x := fieldX w
  let kk := fieldKk w
  if kk = 0x07 then some (.ldVxDt x)
  else if kk = 0x0A then some (.ldVxK x)
  else if kk = 0x15 then some (.ldDtVx x)
  else if kk = 0x18 then some (.ldStVx x)
  else if kk = 0x1E then some (.addI x)
  else if kk = 0x29 then some (.ldF x)
  else if kk = 0x33 then some (.ldB x)
  else if kk = 0x55 then some (.ldMemVx x)
  else if kk = 0x65 then some (.ldVxMem x)
  else none

/-- `Decode(w)` of R94; `none` is `Illegal` (R97). Families 5 and 9 check the low nibble (D4, log 14). -/
def decodeWord (w : Word) : Option Instr :=
  match (fieldOp w).toNat with
  | 0x0 => decode0 w
  | 0x1 => some (.jp (fieldNnn w))
  | 0x2 => some (.call (fieldNnn w))
  | 0x3 => some (.seImm (fieldX w) (fieldKk w))
  | 0x4 => some (.sneImm (fieldX w) (fieldKk w))
  | 0x5 => if fieldN w = 0 then some (.seReg (fieldX w) (fieldY w)) else none
  | 0x6 => some (.ldImm (fieldX w) (fieldKk w))
  | 0x7 => some (.addImm (fieldX w) (fieldKk w))
  | 0x8 => decode8 w
  | 0x9 => if fieldN w = 0 then some (.sneReg (fieldX w) (fieldY w)) else none
  | 0xA => some (.ldI (fieldNnn w))
  | 0xB => some (.jpV0 (fieldNnn w))
  | 0xC => some (.rnd (fieldX w) (fieldKk w))
  | 0xD => some (.drw (fieldX w) (fieldY w) (fieldN w))
  | 0xE => decodeE w
  | 0xF => decodeF w
  | _ => none

/-- Why bytes hold no instruction. -/
inductive DecodeError where
  /-- Fewer than the two bytes every instruction has (R90). -/
  | truncated (bytes : List Byte)
  /-- A word no row of R95 matches (R97). -/
  | illegal (w : Word)
  deriving DecidableEq, Repr

/-- The word of two bytes in memory order, high byte first (R90, 20_memory.md R64, R65). -/
def wordOfBytes (hi lo : Byte) : Word := hi ++ lo

/-- The decoder on bytes: the first instruction and the rest, or the error by name. -/
def decode : List Byte → Except DecodeError (Instr × List Byte)
  | hi :: lo :: rest =>
    match decodeWord (wordOfBytes hi lo) with
    | some i => .ok (i, rest)
    | none => .error (.illegal (wordOfBytes hi lo))
  | bytes => .error (.truncated bytes)

/-! ## The encoder (R92, R95) -/

/-- A word of format `nnn`: op and address. -/
def wordNnn (op : BitVec 4) (nnn : Addr) : Word := op ++ nnn
/-- A word of format `xkk` (and, with `kk` fixed, of format `x`). -/
def wordXkk (op : BitVec 4) (x : Reg) (kk : Byte) : Word := op ++ BitVec.ofFin (w := 4) x ++ kk
/-- A word of format `xyn` (and, with `n` fixed, of formats `xy` and `x_`). -/
def wordXyn (op : BitVec 4) (x y : Reg) (n : Count) : Word :=
  op ++ BitVec.ofFin (w := 4) x ++ BitVec.ofFin (w := 4) y ++ BitVec.ofFin (w := 4) n

/-- The word of an instruction, from the opcode map R95. The ignored `y` of 8xy6 and 8xyE is 0 (log 10). -/
def encode : Instr → Word
  | .cls => 0x00E0
  | .ret => 0x00EE
  | .jp nnn => wordNnn 0x1 nnn
  | .call nnn => wordNnn 0x2 nnn
  | .seImm x kk => wordXkk 0x3 x kk
  | .sneImm x kk => wordXkk 0x4 x kk
  | .seReg x y => wordXyn 0x5 x y 0x0
  | .ldImm x kk => wordXkk 0x6 x kk
  | .addImm x kk => wordXkk 0x7 x kk
  | .ldReg x y => wordXyn 0x8 x y 0x0
  | .orReg x y => wordXyn 0x8 x y 0x1
  | .andReg x y => wordXyn 0x8 x y 0x2
  | .xorReg x y => wordXyn 0x8 x y 0x3
  | .addReg x y => wordXyn 0x8 x y 0x4
  | .sub x y => wordXyn 0x8 x y 0x5
  | .shr x => wordXyn 0x8 x 0 0x6
  | .subn x y => wordXyn 0x8 x y 0x7
  | .shl x => wordXyn 0x8 x 0 0xE
  | .sneReg x y => wordXyn 0x9 x y 0x0
  | .ldI nnn => wordNnn 0xA nnn
  | .jpV0 nnn => wordNnn 0xB nnn
  | .rnd x kk => wordXkk 0xC x kk
  | .drw x y n => wordXyn 0xD x y n
  | .skp x => wordXkk 0xE x 0x9E
  | .sknp x => wordXkk 0xE x 0xA1
  | .ldVxDt x => wordXkk 0xF x 0x07
  | .ldVxK x => wordXkk 0xF x 0x0A
  | .ldDtVx x => wordXkk 0xF x 0x15
  | .ldStVx x => wordXkk 0xF x 0x18
  | .addI x => wordXkk 0xF x 0x1E
  | .ldF x => wordXkk 0xF x 0x29
  | .ldB x => wordXkk 0xF x 0x33
  | .ldMemVx x => wordXkk 0xF x 0x55
  | .ldVxMem x => wordXkk 0xF x 0x65

/-- The high byte of a word, which lies at the lower address (20_memory.md R65). -/
def highByte (w : Word) : Byte := w.extractLsb' 8 8
/-- The low byte of a word, which lies at the higher address. -/
def lowByte (w : Word) : Byte := w.extractLsb' 0 8

/-- The bytes of an instruction in memory order. -/
def encodeBytes (i : Instr) : List Byte := [highByte (encode i), lowByte (encode i)]

/-! ## The opcode map as rows (R95) -/

/-- One row of R95, its pattern and the two words the decoder compares with. -/
structure OpcodeRow where
  pattern : String
  pat : Word
  mask : Word
  deriving DecidableEq, Repr

/-- "A word `w` selects a row when `w AND mask = match`" (R95). -/
def OpcodeRow.selects (r : OpcodeRow) (w : Word) : Bool := decide (w &&& r.mask = r.pat)

/-- The 34 rows of R95, in its order. -/
def opcodeMap : List OpcodeRow :=
  [⟨"00E0", 0x00E0, 0xFFFF⟩, ⟨"00EE", 0x00EE, 0xFFFF⟩, ⟨"1nnn", 0x1000, 0xF000⟩,
   ⟨"2nnn", 0x2000, 0xF000⟩, ⟨"3xkk", 0x3000, 0xF000⟩, ⟨"4xkk", 0x4000, 0xF000⟩,
   ⟨"5xy0", 0x5000, 0xF00F⟩, ⟨"6xkk", 0x6000, 0xF000⟩, ⟨"7xkk", 0x7000, 0xF000⟩] ++
  [⟨"8xy0", 0x8000, 0xF00F⟩, ⟨"8xy1", 0x8001, 0xF00F⟩, ⟨"8xy2", 0x8002, 0xF00F⟩,
   ⟨"8xy3", 0x8003, 0xF00F⟩, ⟨"8xy4", 0x8004, 0xF00F⟩, ⟨"8xy5", 0x8005, 0xF00F⟩,
   ⟨"8xy6", 0x8006, 0xF00F⟩, ⟨"8xy7", 0x8007, 0xF00F⟩, ⟨"8xyE", 0x800E, 0xF00F⟩] ++
  [⟨"9xy0", 0x9000, 0xF00F⟩, ⟨"Annn", 0xA000, 0xF000⟩, ⟨"Bnnn", 0xB000, 0xF000⟩,
   ⟨"Cxkk", 0xC000, 0xF000⟩, ⟨"Dxyn", 0xD000, 0xF000⟩, ⟨"Ex9E", 0xE09E, 0xF0FF⟩,
   ⟨"ExA1", 0xE0A1, 0xF0FF⟩] ++
  [⟨"Fx07", 0xF007, 0xF0FF⟩, ⟨"Fx0A", 0xF00A, 0xF0FF⟩, ⟨"Fx15", 0xF015, 0xF0FF⟩,
   ⟨"Fx18", 0xF018, 0xF0FF⟩, ⟨"Fx1E", 0xF01E, 0xF0FF⟩, ⟨"Fx29", 0xF029, 0xF0FF⟩,
   ⟨"Fx33", 0xF033, 0xF0FF⟩, ⟨"Fx55", 0xF055, 0xF0FF⟩, ⟨"Fx65", 0xF065, 0xF0FF⟩]

/-! ## Words as spec/opcode_table.json numbers them -/

/-- The 16-bit word of a table row's bits: bits at and above `nbits` are 0. -/
def tableWord (nbits w : Nat) : Word := BitVec.ofNat 16 (w % 2 ^ nbits)

/-- The instruction the decoder reads from the bytes of a table word laid out high byte first. -/
def decodeTableWord (nbits w : Nat) : Option Instr :=
  match decode [highByte (tableWord nbits w), lowByte (tableWord nbits w)] with
  | .ok (i, _) => some i
  | .error _ => none

end Sys2Proof
end

