-- ==== Sys2Proof/Machine/Font.lean ====
section
/-! DEFINITION. The default parameters of the machine (00_scope.md R7, 10_state.md R41). PRESUMED: the spec marks
the glyph height and the font bytes as general knowledge (log 1). -/

namespace Sys2Proof

/-- The default `FONT` of R41, glyphs 0 to F, five bytes each. -/
def defaultFont : List Byte :=
  [0xF0, 0x90, 0x90, 0x90, 0xF0] ++ [0x20, 0x60, 0x20, 0x20, 0x70] ++
  [0xF0, 0x10, 0xF0, 0x80, 0xF0] ++ [0xF0, 0x10, 0xF0, 0x10, 0xF0] ++
  [0x90, 0x90, 0xF0, 0x10, 0x10] ++ [0xF0, 0x80, 0xF0, 0x10, 0xF0] ++
  [0xF0, 0x80, 0xF0, 0x90, 0xF0] ++ [0xF0, 0x10, 0x20, 0x40, 0x40] ++
  [0xF0, 0x90, 0xF0, 0x90, 0xF0] ++ [0xF0, 0x90, 0xF0, 0x10, 0xF0] ++
  [0xF0, 0x90, 0xF0, 0x90, 0x90] ++ [0xE0, 0x90, 0xE0, 0x90, 0xE0] ++
  [0xF0, 0x80, 0x80, 0x80, 0xF0] ++ [0xE0, 0x90, 0x90, 0x90, 0xE0] ++
  [0xF0, 0x80, 0xF0, 0x80, 0xF0] ++ [0xF0, 0x80, 0xF0, 0x80, 0x80]

/-- The default parameters of R7: glyph height 5, the font of R41, timers running during a key wait. -/
def defaultConfig : Config where
  glyphHeight := 5
  font := defaultFont
  timersDuringKeyWait := .run

end Sys2Proof
end

