-- ==== Sys2Proof/Machine/State.lean ====
section
/-! DEFINITION. The state of the core (10_state.md), the host's events, the fault record, the reasons a step can
stop, and the state after reset (R47). Everything is plain data. -/

namespace Sys2Proof.Machine

/-- Memory: the bytes that differ from what an unlisted address reads as, by rising address (`Memory.wf`). -/
abbrev Memory := List Host.Cell

/-- The framebuffer, column first: `Pix[px][py]` (R36). -/
abbrev Screen := Vector (Vector Bool 32) 64

/-- `Mode` (R46). -/
inductive Mode where
  /-- The core accepts Step. -/
  | running
  /-- An Fx0A with `x = r` holds the core until a key goes down. -/
  | waitingForKey (r : Reg)
  /-- A fault stopped the core. -/
  | faulted
  deriving DecidableEq, Repr

/-- The kinds of fault (60_exceptions.md R240). -/
inductive FaultKind where
  | outOfBounds
  | stackOverflow
  | stackUnderflow
  | loadTooLarge
  | illegalInstruction
  deriving DecidableEq, Repr

/-- A fault before it is taken: its kind and the `detail` R240 records. -/
structure Trap where
  kind : FaultKind
  detail : Nat
  deriving DecidableEq, Repr

/-- The fault record (R44). -/
structure FaultRecord where
  kind : FaultKind
  /-- The address the faulting instruction was fetched from, or that could not be fetched. -/
  pc : Word
  /-- The instruction word; none for a fetch fault. -/
  word : Option Word
  detail : Nat
  deriving DecidableEq, Repr

/-- The atomic events of the block's interface (R260). Key events exist only for k in 0..15 (D23). -/
inductive Event where
  | step
  | timerTick
  | keyDown (k : Key)
  | keyUp (k : Key)
  | load (image : List Byte)
  | reset
  | diagSetPixel (px py : Nat)
  deriving DecidableEq, Repr

/-- The state: R20's record, then three fields of the model's own. -/
structure State where
  /-- `Mem` (R37). -/
  mem : Memory
  /-- `V[0]`..`V[15]`; `V[15]` is VF (R21, R24). -/
  v : Vector Byte 16
  /-- `I` (R29). -/
  i : Word
  /-- `DT` (R30). -/
  dt : Byte
  /-- `ST` (R31). -/
  st : Byte
  /-- `PC` (R25). -/
  pc : Word
  /-- `SP`, the number of occupied stack slots, 0..16 (R32). -/
  sp : Fin 17
  /-- `Stack` (R33). -/
  stack : Vector Word 16
  /-- `Key` (R35). -/
  key : Vector Bool 16
  /-- `Pix` (R36). -/
  pix : Screen
  /-- `Mode` (R46). -/
  mode : Mode
  /-- `Loaded` (R43). -/
  loaded : Bool
  /-- `Fault` (R44). -/
  fault : Option FaultRecord
  /-- The model's own: the machine's parameters (R7), which no step writes (log 1). -/
  config : Config
  /-- The model's own: how many bytes have been drawn from `RNG` (R45, log 2). -/
  draws : Nat
  /-- The model's own: the host events still to come, next one first; with none listed the host issues Step (log 4). -/
  events : List Event
  deriving DecidableEq, Repr

/-- Why a step stops without a next state. The spec's own faults are not here: taking one is a next state
(R244), see `FaultRecord`. -/
inductive Fault where
  /-- Raised by `step` when the core is Faulted and the next event is not Reset: no event is enabled (R245).
  Safe: the model stops where the core's state stays as it is (log 5). -/
  | coreFaulted
  /-- Raised by `step` when the next event is Step and the core waits for a key: Step is not enabled (R46, R223).
  Safe: the model stops where the core holds (log 5). -/
  | waitingForKey
  deriving DecidableEq, Repr

/-- Why a step is refused. -/
inductive Refusal where
  /-- Raised by `exec` for an instruction with no meaning yet; no arm uses it. Safe. -/
  | notModelled (mnemonic : String)
  /-- Raised by `step` when the next event is Step and no program is loaded: not enabled (R43, R140). Safe (log 5). -/
  | stepBeforeLoad
  /-- Raised by `step` when the next event is Load and a program is loaded or the core waits: not enabled (R260). Safe (log 6). -/
  | loadNotEnabled
  /-- Raised by `step` when the next event is TimerTick and the core waits with the timers frozen (R260). Safe (log 6). -/
  | timersFrozen
  deriving DecidableEq, Repr

/-- The state after Reset, with the default parameters (R47, R290): nothing listed in memory, so every byte reads
as `FONT` or 0. The three fields of the model's own start at the values logs 1, 2 and 4 name. -/
def State.reset : State where
  mem := []
  v := Vector.replicate 16 0
  i := 0
  dt := 0
  st := 0
  pc := 0
  sp := 0
  stack := Vector.replicate 16 0
  key := Vector.replicate 16 false
  pix := Vector.replicate 64 (Vector.replicate 32 false)
  mode := .running
  loaded := false
  fault := none
  config := defaultConfig
  draws := 0
  events := []

end Sys2Proof.Machine
end

