-- ==== Sys2Proof/Machine/Ops.lean ====
section
/-! DEFINITION. The operations the meanings share: memory (20_memory.md), the register file, the stack controller
(41_control_flow.md R142), the framebuffer's cells, and taking a fault (60_exceptions.md R244) with Reset, the only
way out of one (R246), beside it. -/

namespace Sys2Proof.Machine

/-- The numeric code of a kind of fault (R240, D3). -/
def FaultKind.code : FaultKind → Nat
  | .outOfBounds => 1
  | .stackOverflow => 2
  | .stackUnderflow => 3
  | .loadTooLarge => 4
  | .illegalInstruction => 5

/-! ## Memory -/

/-- What a byte of memory holds until something writes it: `FONT` at `FONT_BASE`, 0 elsewhere (R37, R40, R290). -/
def unlistedByte (c : Config) (a : Nat) : Byte :=
  if a < 16 * c.glyphHeight then c.font.getD (a - fontBase) 0 else 0

/-- The listed byte at an address. -/
def Memory.lookup : List Host.Cell → Nat → Option Byte
  | [], _ => none
  | (k, b) :: m, a => if a = k then some b else Memory.lookup m a

/-- The list with a byte at an address, kept in rising order. -/
def Memory.insert : List Host.Cell → Nat → Byte → List Host.Cell
  | [], a, b => [(a, b)]
  | (k, x) :: m, a, b =>
    if a < k then (a, b) :: (k, x) :: m
    else if a = k then (a, b) :: m
    else (k, x) :: Memory.insert m a b

/-- The list without an address. -/
def Memory.remove (m : List Host.Cell) (a : Nat) : List Host.Cell := m.filter fun p => decide (p.1 ≠ a)

/-- The byte at an address: what is listed, else what an unlisted address reads as. -/
def Memory.read (c : Config) (m : List Host.Cell) (a : Nat) : Byte := (Memory.lookup m a).getD (unlistedByte c a)

/-- The memory with a byte written. Writing what an unlisted address reads as takes the entry out. -/
def Memory.write (c : Config) (m : List Host.Cell) (a : Nat) (b : Byte) : List Host.Cell :=
  if b = unlistedByte c a then Memory.remove m a else Memory.insert m a b

/-- The canonical form: addresses strictly rising and inside memory, and no entry equal to what its address reads
as unlisted. -/
abbrev Memory.wf (c : Config) (m : List Host.Cell) : Prop :=
  m.Pairwise (fun p q => p.1 < q.1) ∧ ∀ p ∈ m, p.1 < memSize ∧ p.2 ≠ unlistedByte c p.1

/-- `Mem[a]`, unchecked. -/
def State.byteAt (s : State) (a : Nat) : Byte := Memory.read s.config s.mem a

/-- `Mem[a] <- b`, unchecked. -/
def State.setByte (s : State) (a : Nat) (b : Byte) : State := { s with mem := Memory.write s.config s.mem a b }

/-- `for j: Mem[base + j] <- bytes[j]`, unchecked; used after `checkRange` (R63). -/
def State.storeBytes (s : State) (base : Nat) : List Byte → State
  | [] => s
  | b :: bs => (s.setByte base b).storeBytes (base + 1) bs

/-- `[Mem[base], .., Mem[base + m - 1]]`, unchecked; used after `checkRange` (R63). -/
def State.loadBytes (s : State) (base m : Nat) : List Byte := (List.range m).map fun j => s.byteAt (base + j)

/-- `get(addr)` (R62). -/
def memGet (s : State) (a : Nat) : Except Trap Byte :=
  if memSize ≤ a then .error ⟨.outOfBounds, a⟩ else .ok (s.byteAt a)

/-- `set(addr, value)` (R62). -/
def memSet (s : State) (a : Nat) (b : Byte) : Except Trap State :=
  if memSize ≤ a then .error ⟨.outOfBounds, a⟩ else .ok (s.setByte a b)

/-- `get_word(addr)`, big-endian (R64, R65). -/
def getWord (s : State) (a : Nat) : Except Trap Word :=
  if memSize ≤ a then .error ⟨.outOfBounds, a⟩
  else if memSize ≤ a + 1 then .error ⟨.outOfBounds, a + 1⟩
  else .ok (wordOfBytes (s.byteAt a) (s.byteAt (a + 1)))

/-- `CheckRange(base, m)` (R63): no wrap at 2^16 (D15), and the smallest failing address as the detail. -/
def checkRange (base m : Nat) : Except Trap Unit :=
  if 0 < m ∧ memSize ≤ base + m - 1 then .error ⟨.outOfBounds, max base memSize⟩ else .ok ()

/-! ## The register file (10_state.md R21, R22) -/

/-- `V[r]`. -/
def State.readV (s : State) (r : Reg) : Byte := s.v[r.val]

/-- `V[r] <- b`. -/
def State.writeV (s : State) (r : Reg) (b : Byte) : State := { s with v := s.v.set r.val b }

/-! ## The stack controller (R142) -/

/-- `Stack[j]`. -/
def State.slot (s : State) (j : Fin 16) : Word := s.stack[j.val]

/-- `push(v)`: checks before it writes. -/
def push (s : State) (w : Word) : Except Trap State :=
  if h : s.sp.val < stackDepth then
    .ok { s with stack := s.stack.set s.sp.val w, sp := ⟨s.sp.val + 1, Nat.succ_lt_succ h⟩ }
  else .error ⟨.stackOverflow, s.sp.val⟩

/-- `pop()`: checks before it writes, and keeps the slot's value (R33, D24). -/
def pop (s : State) : Except Trap (Word × State) :=
  if h : 0 < s.sp.val then
    .ok (s.stack[s.sp.val - 1]'(by omega), { s with sp := ⟨s.sp.val - 1, by omega⟩ })
  else .error ⟨.stackUnderflow, s.sp.val⟩

/-! ## Keys and pixels -/

/-- `Key[k]` (R35). -/
def State.keyAt (s : State) (k : Key) : Bool := s.key[k.val]

/-- `Key[k] <- b`. -/
def State.setKey (s : State) (k : Key) (b : Bool) : State := { s with key := s.key.set k.val b }

/-- `Pix[px][py]` of a screen (R36). -/
def Screen.get (p : Vector (Vector Bool 32) 64) (px : Fin 64) (py : Fin 32) : Bool := p[px.val][py.val]

/-- `Pix[px][py] <- b` on a screen. -/
def Screen.put (p : Vector (Vector Bool 32) 64) (px : Fin 64) (py : Fin 32) (b : Bool) :
    Vector (Vector Bool 32) 64 :=
  p.set px.val (p[px.val].set py.val b)

/-- Every pixel unset. -/
def Screen.clear : Vector (Vector Bool 32) 64 := Vector.replicate 64 (Vector.replicate 32 false)

/-- `Pix[px][py]`. -/
def State.pixel (s : State) (px : Fin 64) (py : Fin 32) : Bool := Screen.get s.pix px py

/-! ## The program counter -/

/-- `Skip: PC <- (PC + 2) mod 2^16` when the condition holds (R146). -/
def State.skipIf (s : State) (cond : Bool) : State := if cond then { s with pc := s.pc + 2 } else s

/-- Where the instruction now executing was fetched from: the fetch moved `PC` two past it (R25, R141, log 9). -/
def State.fetchAddr (s : State) : Word := s.pc - 2

/-! ## Taking a fault, and the way out -/

/-- Fault entry (R244): `Mode` and `Fault` are written, and nothing else. -/
def takeFault (s : State) (t : Trap) (pc : Word) (word : Option Word) : State :=
  { s with mode := .faulted, fault := some { kind := t.kind, pc := pc, word := word, detail := t.detail } }

/-- A fault raised by the instruction now executing: the record holds its address and its word (R244, log 9). -/
def raise (i : Instr) (t : Trap) (s : State) : State := takeFault s t s.fetchAddr (some (encode i))

/-- An instruction with one check (R242): the check's fault is taken, or its effect happens. -/
def checked {α : Type} (i : Instr) (s : State) (check : Except Trap α) (effect : α → State) :
    Host.Outcome State Fault Refusal :=
  match check with
  | .error t => .next (raise i t s)
  | .ok a => .next (effect a)

/-- The Reset event (70_reset_and_hazards.md R290), the only way out of a fault (R246): every piece of the core's
state takes its reset value. The parameters, the count of draws and the host's later events are not state of the
core and stay (log 13). -/
def resetCore (s : State) : State :=
  { State.reset with config := s.config, draws := s.draws, events := s.events }

end Sys2Proof.Machine
end

