-- ==== Sys2Proof/Machine/Flags.lean ====
section
/-! DEFINITION. Every flag the spec computes (10_state.md R24, 42_alu.md R171), and the one order in which a flag
and a result are written (R170). -/

namespace Sys2Proof.Machine

/-- VF, the flag register (R24). -/
abbrev vf : Reg := 15

/-- A flag value: 0 or 1 (R24). -/
def flagByte (b : Bool) : Byte := if b then 1 else 0

/-- The carry of 8xy4: the sum exceeds 255 (R178). -/
def carryOut (a b : Byte) : Bool := decide (255 < a.toNat + b.toNat)

/-- The not-borrow of 8xy5 and 8xy7: strictly greater (R171, R179, R181, C5). -/
def notBorrow (a b : Byte) : Bool := decide (b.toNat < a.toNat)

/-- The bit 8xy6 shifts out (R180). -/
def shiftedOutRight (a : Byte) : Bool := a.getLsbD 0

/-- The bit 8xyE shifts out (R182). -/
def shiftedOutLeft (a : Byte) : Bool := a.getLsbD 7

/-- VF is written first and `V[x]` second, so for `x = F` the result survives (R170, D5, log 15). -/
def State.writeFlagAndResult (s : State) (x : Reg) (flag : Bool) (result : Byte) : State :=
  (s.writeV vf (flagByte flag)).writeV x result

end Sys2Proof.Machine
end

