-- ==== Sys2Proof/Machine/Alu.lean ====
section
/-! DEFINITION. Register loads and the ALU (42_alu.md): 6xkk, 7xkk, 8xy0 to 8xy7, 8xyE, Cxkk. Operands are read
before anything is written (R170); none of these can fault. -/

namespace Sys2Proof.Machine

/-- 6xkk LD Vx, byte (R172). -/
def execLdImm (x : Reg) (kk : Byte) (s : State) : Host.Outcome State Fault Refusal := .next (s.writeV x kk)

/-- 7xkk ADD Vx, byte: wraps, no flag (R173). -/
def execAddImm (x : Reg) (kk : Byte) (s : State) : Host.Outcome State Fault Refusal :=
  .next (s.writeV x (s.readV x + kk))

/-- 8xy0 LD Vx, Vy (R174). -/
def execLdReg (x y : Reg) (s : State) : Host.Outcome State Fault Refusal := .next (s.writeV x (s.readV y))

/-- 8xy1 OR Vx, Vy; VF is not reset (R175, D29). -/
def execOrReg (x y : Reg) (s : State) : Host.Outcome State Fault Refusal :=
  .next (s.writeV x (s.readV x ||| s.readV y))

/-- 8xy2 AND Vx, Vy; VF is not reset (R176, D29). -/
def execAndReg (x y : Reg) (s : State) : Host.Outcome State Fault Refusal :=
  .next (s.writeV x (s.readV x &&& s.readV y))

/-- 8xy3 XOR Vx, Vy; VF is not reset (R177, D29). -/
def execXorReg (x y : Reg) (s : State) : Host.Outcome State Fault Refusal :=
  .next (s.writeV x (s.readV x ^^^ s.readV y))

/-- 8xy4 ADD Vx, Vy with carry out (R178). -/
def execAddReg (x y : Reg) (s : State) : Host.Outcome State Fault Refusal :=
  .next (s.writeFlagAndResult x (carryOut (s.readV x) (s.readV y)) (s.readV x + s.readV y))

/-- 8xy5 SUB Vx, Vy with not-borrow (R179). -/
def execSub (x y : Reg) (s : State) : Host.Outcome State Fault Refusal :=
  .next (s.writeFlagAndResult x (notBorrow (s.readV x) (s.readV y)) (s.readV x - s.readV y))

/-- 8xy6 SHR Vx: logical, by one (R180). -/
def execShr (x : Reg) (s : State) : Host.Outcome State Fault Refusal :=
  .next (s.writeFlagAndResult x (shiftedOutRight (s.readV x)) (s.readV x >>> 1))

/-- 8xy7 SUBN Vx, Vy: reverse subtract with not-borrow (R181). -/
def execSubn (x y : Reg) (s : State) : Host.Outcome State Fault Refusal :=
  .next (s.writeFlagAndResult x (notBorrow (s.readV y) (s.readV x)) (s.readV y - s.readV x))

/-- 8xyE SHL Vx: by one (R182). -/
def execShl (x : Reg) (s : State) : Host.Outcome State Fault Refusal :=
  .next (s.writeFlagAndResult x (shiftedOutLeft (s.readV x)) (s.readV x <<< 1))

/-- `draw(RNG)`: the next random byte, a free value, and the state that has drawn it (R45, R183, log 2). -/
def drawRandom (s : State) : Byte × State := (Config.randomByte s.draws, { s with draws := s.draws + 1 })

/-- Cxkk RND Vx, byte: one draw, masked (R183). -/
def execRnd (x : Reg) (kk : Byte) (s : State) : Host.Outcome State Fault Refusal :=
  .next ((drawRandom s).2.writeV x ((drawRandom s).1 &&& kk))

end Sys2Proof.Machine
end

