-- ==== Sys2Proof/Machine/Operands.lean ====
section
/-! DEFINITION. Operand forms: how the fields of an instruction become values and addresses (30_encoding.md R93,
43_index_memory.md R206), the checked key index (44_keyboard_timer.md R220) and the decimal digits (R203). -/

namespace Sys2Proof.Machine

/-- `zext_16(nnn)`. -/
def zextAddr (nnn : Addr) : Word := nnn.setWidth 16

/-- `zext_16` of a register's byte. -/
def zextByte (b : Byte) : Word := b.setWidth 16

/-- The effective address `I + j`, an unbounded integer (R63, R206). -/
def State.ea (s : State) (j : Nat) : Nat := s.i.toNat + j

/-- The address of the glyph for a byte: `FONT_BASE + V[x] * GLYPH_HEIGHT`, with no nibble mask (R202, D8), kept to
the 16 bits of `I` (log 11). -/
def glyphAddr (c : Config) (b : Byte) : Word := BitVec.ofNat 16 (fontBase + b.toNat * c.glyphHeight)

/-- The key a register names: only 0..15 is a key, anything else is OutOfBounds (R220, D10). -/
def keyIndex (b : Byte) : Except Trap Key :=
  if h : b.toNat < 16 then .ok ⟨b.toNat, h⟩ else .error ⟨.outOfBounds, b.toNat⟩

/-- The hundreds, tens and units digits of a byte, in the order they are stored (R203). -/
def decimalDigits (b : Byte) : List Byte :=
  [BitVec.ofNat 8 (b.toNat / 100), BitVec.ofNat 8 (b.toNat / 10 % 10), BitVec.ofNat 8 (b.toNat % 10)]

/-- `V[0]`..`V[x]`, inclusive (R204). -/
def State.regsUpTo (s : State) (x : Reg) : List Byte := s.v.toList.take (x.val + 1)

/-- The registers with `V[0]`..`V[x]` taken from memory at `I` on (R205). -/
def State.regsFromMem (s : State) (x : Reg) : Vector Byte 16 :=
  Vector.ofFn fun j => if j.val ≤ x.val then s.byteAt (s.ea j.val) else s.readV j

end Sys2Proof.Machine
end

