-- ==== Sys2Proof/Machine/ControlFlow.lean ====
section
/-! DEFINITION. Control transfer (41_control_flow.md): 00EE, 1nnn, 2nnn, 3xkk, 4xkk, 5xy0, 9xy0, Bnnn. `PC` is
already the instruction's address plus 2 (R11, R141). -/

namespace Sys2Proof.Machine

/-- 00EE RET (R143). -/
def execRet (s : State) : Host.Outcome State Fault Refusal :=
  checked .ret s (pop s) fun p => { p.2 with pc := p.1 }

/-- 1nnn JP addr (R144). -/
def execJp (nnn : Addr) (s : State) : Host.Outcome State Fault Refusal := .next { s with pc := zextAddr nnn }

/-- 2nnn CALL addr (R145). -/
def execCall (nnn : Addr) (s : State) : Host.Outcome State Fault Refusal :=
  checked (.call nnn) s (push s s.pc) fun t => { t with pc := zextAddr nnn }

/-- 3xkk SE Vx, byte (R147). -/
def execSeImm (x : Reg) (kk : Byte) (s : State) : Host.Outcome State Fault Refusal :=
  .next (s.skipIf (decide (s.readV x = kk)))

/-- 4xkk SNE Vx, byte (R148). -/
def execSneImm (x : Reg) (kk : Byte) (s : State) : Host.Outcome State Fault Refusal :=
  .next (s.skipIf (decide (s.readV x ≠ kk)))

/-- 5xy0 SE Vx, Vy (R149). -/
def execSeReg (x y : Reg) (s : State) : Host.Outcome State Fault Refusal :=
  .next (s.skipIf (decide (s.readV x = s.readV y)))

/-- 9xy0 SNE Vx, Vy (R150). -/
def execSneReg (x y : Reg) (s : State) : Host.Outcome State Fault Refusal :=
  .next (s.skipIf (decide (s.readV x ≠ s.readV y)))

/-- Bnnn JP V0, addr: always `V[0]`, and no 12-bit mask (R152, D17). -/
def execJpV0 (nnn : Addr) (s : State) : Host.Outcome State Fault Refusal :=
  .next { s with pc := zextAddr nnn + zextByte (s.readV 0) }

end Sys2Proof.Machine
end

