-- ==== Sys2Proof/Machine/Display.lean ====
section
/-! DEFINITION. The framebuffer compositor and the display instructions 00E0 and Dxyn (40_display.md). -/

namespace Sys2Proof.Machine

/-- The column of a sprite bit: `(x0 + c) mod 64` (R122, R124). -/
def wrapX (x0 c : Nat) : Fin 64 := ⟨(x0 + c) % screenWidth, Nat.mod_lt _ (by decide)⟩

/-- The row of a sprite row: `(y0 + r) mod 32` (R122, R124). -/
def wrapY (y0 r : Nat) : Fin 32 := ⟨(y0 + r) % screenHeight, Nat.mod_lt _ (by decide)⟩

/-- One bit of a sprite row: column `c` is bit `7 - c`. A set bit records a collision with a set pixel and toggles
the pixel; a clear bit does nothing (R122, R123). -/
def drawBit (x0 y0 r : Nat) (row : Byte) (acc : Vector (Vector Bool 32) 64 × Bool) (c : Nat) :
    Vector (Vector Bool 32) 64 × Bool :=
  if row.getLsbD (7 - c) then
    let old := Screen.get acc.1 (wrapX x0 c) (wrapY y0 r)
    (Screen.put acc.1 (wrapX x0 c) (wrapY y0 r) (!old), acc.2 || old)
  else acc

/-- One sprite row: the eight bits, most significant first (R122). -/
def drawRow (x0 y0 r : Nat) (row : Byte) (acc : Vector (Vector Bool 32) 64 × Bool) :
    Vector (Vector Bool 32) 64 × Bool :=
  [0, 1, 2, 3, 4, 5, 6, 7].foldl (drawBit x0 y0 r row) acc

/-- The rows of a sprite from row index `r` on (R122). -/
def drawRows (x0 y0 : Nat) : Nat → List Byte → Vector (Vector Bool 32) 64 × Bool → Vector (Vector Bool 32) 64 × Bool
  | _, [], acc => acc
  | r, row :: rows, acc => drawRows x0 y0 (r + 1) rows (drawRow x0 y0 r row acc)

/-- `draw_sprite(x0, y0, rows, n)`: the screen after it, and whether a collision was recorded (R122). -/
def drawSprite (x0 y0 : Nat) (rows : List Byte) (pix : Vector (Vector Bool 32) 64) :
    Vector (Vector Bool 32) 64 × Bool :=
  drawRows x0 y0 0 rows (pix, false)

/-- 00E0 CLS (R120). -/
def execCls (s : State) : Host.Outcome State Fault Refusal := .next { s with pix := Screen.clear }

/-- The effect of Dxyn once its range is checked: coordinates and rows are read before VF is written (R121). -/
def State.drawn (s : State) (x y : Reg) (n : Count) : State :=
  let out := drawSprite (s.readV x).toNat (s.readV y).toNat (s.loadBytes (s.ea 0) n.val) s.pix
  State.writeV { s with pix := out.1 } vf (flagByte out.2)

/-- Dxyn DRW Vx, Vy, nibble (R121). -/
def execDrw (x y : Reg) (n : Count) (s : State) : Host.Outcome State Fault Refusal :=
  checked (.drw x y n) s (checkRange (s.ea 0) n.val) fun _ => s.drawn x y n

end Sys2Proof.Machine
end

