-- ==== Sys2Proof/Machine/IndexMemory.lean ====
section
/-! DEFINITION. The address register and the memory instructions (43_index_memory.md): Annn, Fx1E, Fx29, Fx33,
Fx55, Fx65. No memory instruction changes `I` (R206, D9). -/

namespace Sys2Proof.Machine

/-- Annn LD I, addr (R200). -/
def execLdI (nnn : Addr) (s : State) : Host.Outcome State Fault Refusal := .next { s with i := zextAddr nnn }

/-- Fx1E ADD I, Vx: kept to 16 bits, no flag (R201, D6, D29). -/
def execAddI (x : Reg) (s : State) : Host.Outcome State Fault Refusal :=
  .next { s with i := s.i + zextByte (s.readV x) }

/-- Fx29 LD F, Vx (R202). -/
def execLdF (x : Reg) (s : State) : Host.Outcome State Fault Refusal :=
  .next { s with i := glyphAddr s.config (s.readV x) }

/-- Fx33 LD B, Vx: the digits at `I`, `I + 1`, `I + 2` (R203). -/
def execLdB (x : Reg) (s : State) : Host.Outcome State Fault Refusal :=
  checked (.ldB x) s (checkRange (s.ea 0) 3) fun _ => s.storeBytes (s.ea 0) (decimalDigits (s.readV x))

/-- Fx55 LD [I], Vx: `V[0]`..`V[x]` from `I` on (R204). -/
def execLdMemVx (x : Reg) (s : State) : Host.Outcome State Fault Refusal :=
  checked (.ldMemVx x) s (checkRange (s.ea 0) (x.val + 1)) fun _ => s.storeBytes (s.ea 0) (s.regsUpTo x)

/-- Fx65 LD Vx, [I]: `V[0]`..`V[x]` from memory at `I` on (R205). -/
def execLdVxMem (x : Reg) (s : State) : Host.Outcome State Fault Refusal :=
  checked (.ldVxMem x) s (checkRange (s.ea 0) (x.val + 1)) fun _ => { s with v := s.regsFromMem x }

end Sys2Proof.Machine
end

