-- ==== Sys2Proof/Machine/KeyboardTimer.lean ====
section
/-! DEFINITION. The keyboard and timer instructions (44_keyboard_timer.md): Ex9E, ExA1, Fx07, Fx0A, Fx15, Fx18. -/

namespace Sys2Proof.Machine

/-- Ex9E SKP Vx (R220). -/
def execSkp (x : Reg) (s : State) : Host.Outcome State Fault Refusal :=
  checked (.skp x) s (keyIndex (s.readV x)) fun k => s.skipIf (s.keyAt k)

/-- ExA1 SKNP Vx (R221). -/
def execSknp (x : Reg) (s : State) : Host.Outcome State Fault Refusal :=
  checked (.sknp x) s (keyIndex (s.readV x)) fun k => s.skipIf (!s.keyAt k)

/-- Fx07 LD Vx, DT (R222). -/
def execLdVxDt (x : Reg) (s : State) : Host.Outcome State Fault Refusal := .next (s.writeV x s.dt)

/-- Fx0A LD Vx, K: the core starts to wait; a KeyDown completes it (R223, R264). -/
def execLdVxK (x : Reg) (s : State) : Host.Outcome State Fault Refusal := .next { s with mode := .waitingForKey x }

/-- Fx15 LD DT, Vx (R224). -/
def execLdDtVx (x : Reg) (s : State) : Host.Outcome State Fault Refusal := .next { s with dt := s.readV x }

/-- Fx18 LD ST, Vx (R225). -/
def execLdStVx (x : Reg) (s : State) : Host.Outcome State Fault Refusal := .next { s with st := s.readV x }

end Sys2Proof.Machine
end

