-- ==== Sys2Proof/Machine/Events.lean ====
section
/-! DEFINITION. The block's interface (60_exceptions.md R260 to R273, 70_reset_and_hazards.md R290, R292): the host
events other than Step's own body, when each is enabled, what happens when one is not, and the outputs. -/

namespace Sys2Proof.Machine

/-- What an event can report to the host instead of changing the core (R268, R269, R292). -/
inductive HostReport where
  /-- A Load whose image does not fit, with its length (R292, code 4 of R240). -/
  | loadTooLarge (length : Nat)
  /-- A screen port used outside the screen (R268, R269). -/
  | outOfBounds
  deriving DecidableEq, Repr

/-! ## Timers -/

/-- A timer down by one, never below zero (R266). -/
def tickDown (b : Byte) : Byte := if 0 < b.toNat then b - 1 else 0

/-- TimerTick: both timers in one event (R266). -/
def timerTick (s : State) : State := { s with dt := tickDown s.dt, st := tickDown s.st }

/-! ## Keys -/

/-- Completion of Fx0A: `V[r] <- k`, and the core runs again (R264). -/
def completeWait (s : State) (r : Reg) (k : Key) : State :=
  { s.writeV r (BitVec.ofNat 8 k.val) with mode := .running }

/-- KeyDown(k): sets the flag, and completes a wait when the key was up (R262, R264, D11). -/
def keyDown (s : State) (k : Key) : State :=
  match s.mode, s.keyAt k with
  | .waitingForKey r, false => completeWait (s.setKey k true) r k
  | _, _ => s.setKey k true

/-- KeyUp(k): clears the flag, and nothing else (R263). -/
def keyUp (s : State) (k : Key) : State := s.setKey k false

/-! ## Load -/

/-- Load(image): refused whole when it does not fit, else copied to 0x200 with `PC` there (R292, D31). -/
def loadImage (s : State) (image : List Byte) : Except HostReport State :=
  if memSize < image.length + loadAddr then .error (.loadTooLarge image.length)
  else .ok { s.storeBytes loadAddr image with pc := loadAddr, loaded := true }

/-! ## The screen ports -/

/-- The cell a port names, or OutOfBounds: the ports do not wrap (R124, C8, D25). -/
def portCell (px py : Nat) : Except HostReport (Fin 64 × Fin 32) :=
  if h : px < screenWidth ∧ py < screenHeight then .ok (⟨px, h.1⟩, ⟨py, h.2⟩) else .error .outOfBounds

/-- The read port `is_set(px, py)` (R268). -/
def isSet (s : State) (px py : Nat) : Except HostReport Bool := (portCell px py).map fun c => s.pixel c.1 c.2

/-- DiagSetPixel(px, py): sets one pixel (R269). -/
def diagSetPixel (s : State) (px py : Nat) : Except HostReport State :=
  (portCell px py).map fun c => { s with pix := Screen.put s.pix c.1 c.2 true }

/-- The sound output: `ST > 0` (R270). -/
def soundOn (s : State) : Bool := decide (0 < s.st.toNat)

/-- The status output (R271). -/
def status (s : State) : Mode × Bool × Option FaultRecord := (s.mode, s.loaded, s.fault)

/-! ## Enabling (R260) -/

/-- Whether TimerTick is accepted: not while faulted, and in a key wait as `TIMERS_DURING_KEY_WAIT` says (D12). -/
def timerEnabled (s : State) : Bool :=
  match s.mode with
  | .running => true
  | .waitingForKey _ => decide (s.config.timersDuringKeyWait = .run)
  | .faulted => false

/-- The "enabled when" column of R260. -/
def enabled (s : State) : Event → Bool
  | .step => decide (s.mode = .running) && s.loaded
  | .timerTick => timerEnabled s
  | .keyDown _ | .keyUp _ | .diagSetPixel _ _ => decide (s.mode ≠ .faulted)
  | .load _ => decide (s.mode = .running) && !s.loaded
  | .reset => true

/-- The name under which a step stops when its event is not enabled (logs 5 and 6). -/
def stopped (s : State) (e : Event) : Host.Outcome State Fault Refusal :=
  if s.mode = .faulted then .fault .coreFaulted
  else match e with
    | .step => if s.loaded then .fault .waitingForKey else .refused .stepBeforeLoad
    | .load _ => .refused .loadNotEnabled
    | _ => .refused .timersFrozen

/-- The state a reported event leaves: an event that is reported to the host changes nothing (R269, R292). -/
def settle (s : State) : Except HostReport State → State
  | .ok t => t
  | .error _ => s

/-- What a reported event tells the host (R269, R292). -/
def reported : Except HostReport State → Option HostReport
  | .ok _ => none
  | .error r => some r

/-- What an event reports to the host (R269, R292); the other events report nothing. -/
def hostReport (s : State) : Event → Option HostReport
  | .load image => reported (loadImage s image)
  | .diagSetPixel px py => reported (diagSetPixel s px py)
  | .step | .timerTick | .keyDown _ | .keyUp _ | .reset => none

/-- The next event and the state that has taken it from the schedule: the host's, or Step when none is listed (log 4). -/
def takeEvent (s : State) : Event × State :=
  match s.events with
  | [] => (.step, s)
  | e :: es => (e, { s with events := es })

/-- One event, applied entirely or not enabled (R260). `body` is what a Step does. -/
def deliver (body : State → Host.Outcome State Fault Refusal) (e : Event) (s : State) :
    Host.Outcome State Fault Refusal :=
  if enabled s e then
    match e with
    | .step => body s
    | .timerTick => .next (timerTick s)
    | .keyDown k => .next (keyDown s k)
    | .keyUp k => .next (keyUp s k)
    | .load image => .next (settle s (loadImage s image))
    | .reset => .next (resetCore s)
    | .diagSetPixel px py => .next (settle s (diagSetPixel s px py))
  else stopped s e

end Sys2Proof.Machine
end

