-- ==== Sys2Proof/Machine/Fetch.lean ====
section
/-! DEFINITION. The fetch stage (41_control_flow.md R141), and placing an instruction word where it is fetched. -/

namespace Sys2Proof.Machine

/-- Fetch and decode (R141). A fetch fault is taken before `PC` changes and records no word; an illegal word is
taken after the advance (R99, R243). Otherwise: the instruction, and the state with `PC` two past it. -/
def fetch (s : State) : Except State (Instr × State) :=
  match getWord s s.pc.toNat with
  | .error t => .error (takeFault s t s.pc none)
  | .ok w =>
    match decodeWord w with
    | none => .error (takeFault { s with pc := s.pc + 2 } ⟨.illegalInstruction, w.toNat⟩ s.pc (some w))
    | some i => .ok (i, { s with pc := s.pc + 2 })

/-- The address the next Step of a loaded program fetches from, or the entry point where no program is loaded or
`PC` holds no fetchable address (R25, R64). -/
def fetchSlot (s : State) : Word := if s.loaded && decide (s.pc.toNat + 1 < memSize) then s.pc else loadAddr

/-- The state with a word at the place the next Step fetches from: as if the host had loaded it there, with the
core running and the next event a Step (log 12). -/
def placeWord (s : State) (w : Word) : State :=
  let t := s.storeBytes (fetchSlot s).toNat [highByte w, lowByte w]
  { t with
    pc := fetchSlot s
    mode := .running
    loaded := true
    events := if s.events.isEmpty then [] else .step :: s.events }

end Sys2Proof.Machine
end

