-- ==== Sys2Proof/Machine/KeyMap.lean ====
section
/-! DEFINITION. The host's key map (60_exceptions.md R272, 10_state.md R39). KEYMAP is host-side configuration, so
the table is an argument. -/

namespace Sys2Proof.Machine

/-- A physical key identifier: the host's name for a key. DESIGN CHOICE: names are numbers (log 8). -/
abbrev PhysicalKey := Nat

/-- `set_mapping(table)`: a table of exactly 16 entries, in virtual-key order; any other list is no table. -/
def setMapping (table : List PhysicalKey) : Option (Vector PhysicalKey 16) :=
  if h : table.length = 16 then some ⟨table.toArray, by simpa using h⟩ else none

/-- The linear scan: the first index from `k` on whose entry matches. -/
def scanFrom (p : PhysicalKey) : Nat → List PhysicalKey → Option Nat
  | _, [] => none
  | k, q :: qs => if q = p then some k else scanFrom p (k + 1) qs

/-- `map_physical_to_virtual(p)`: the lowest index whose entry matches, or not found (R272). -/
def mapPhysicalToVirtual (table : Vector PhysicalKey 16) (p : PhysicalKey) : Option Key :=
  (scanFrom p 0 table.toList).bind fun k => if h : k < 16 then some ⟨k, h⟩ else none

/-- The event of pressing a physical key; an unmapped key produces none (R262, R272). -/
def pressEvent (table : Vector PhysicalKey 16) (p : PhysicalKey) : Option Event :=
  (mapPhysicalToVirtual table p).map .keyDown

/-- The event of releasing a physical key (R263, R272). -/
def releaseEvent (table : Vector PhysicalKey 16) (p : PhysicalKey) : Option Event :=
  (mapPhysicalToVirtual table p).map .keyUp

end Sys2Proof.Machine
end

