-- ==== Sys2Proof/Machine/Step.lean ====
section
/-! DEFINITION. One step of the machine: the next event of the schedule, Step being fetch, decode, execute
(41_control_flow.md R141, 60_exceptions.md R260). -/

namespace Sys2Proof.Machine

/-- The body of the Step event (R141). -/
def stepBody (s : State) : Host.Outcome State Fault Refusal :=
  match fetch s with
  | .error t => .next t
  | .ok (i, t) => exec i t

/-- One step: the next event, applied (R260, R261). -/
def step (s : State) : Host.Outcome State Fault Refusal :=
  deliver stepBody (takeEvent s).1 (takeEvent s).2

/-- The state with an instruction word placed where the next step fetches it (log 12). -/
def State.withFetchWord (s : State) (nbits w : Nat) : State := placeWord s (tableWord nbits w)

end Sys2Proof.Machine
end

