-- ==== Sys2Proof/Safety.lean ====
section
/-! DEFINITION. The terms statements are made in: the pieces of the state and what a step leaves unchanged, the
faults the spec's table gives each instruction, the invariant every step keeps, and what a safe run is. -/

namespace Sys2Proof

open Sys2Proof.Machine

/-! ## Frames -/

/-- One observable piece of the state (10_state.md R20), the model's own three fields included. Memory is seen
through the model's read of one byte, the screen through its read of one pixel. -/
inductive Part where
  | byte (a : Nat)
  | reg (r : Reg)
  | i
  | dt
  | st
  | pc
  | sp
  | slot (j : Fin 16)
  | key (k : Key)
  | pixel (px : Fin 64) (py : Fin 32)
  | mode
  | loaded
  | fault
  | config
  | draws
  | events
  deriving DecidableEq, Repr

/-- The piece reads the same in both states. -/
def Part.Same (s t : State) : Part → Prop
  | .byte a => t.byteAt a = s.byteAt a
  | .reg r => t.readV r = s.readV r
  | .i => t.i = s.i
  | .dt => t.dt = s.dt
  | .st => t.st = s.st
  | .pc => t.pc = s.pc
  | .sp => t.sp = s.sp
  | .slot j => t.slot j = s.slot j
  | .key k => t.keyAt k = s.keyAt k
  | .pixel px py => t.pixel px py = s.pixel px py
  | .mode => t.mode = s.mode
  | .loaded => t.loaded = s.loaded
  | .fault => t.fault = s.fault
  | .config => t.config = s.config
  | .draws => t.draws = s.draws
  | .events => t.events = s.events

/-- Every piece of the state that `may` does not name reads the same in both states. -/
def Frame (s t : State) (may : Part → Prop) : Prop := ∀ p, ¬ may p → p.Same s t

/-! ## Faults -/

/-- The fault R240's table gives an instruction in a state, its `detail` included; none where it gives none. -/
def tableFault (s : State) : Instr → Option Trap
  | .ret => if s.sp.val = 0 then some ⟨.stackUnderflow, 0⟩ else none
  | .call _ => if s.sp.val = 16 then some ⟨.stackOverflow, 16⟩ else none
  | .drw _ _ n =>
    if 0 < n.val ∧ 4096 ≤ s.i.toNat + n.val - 1 then some ⟨.outOfBounds, max s.i.toNat 4096⟩ else none
  | .ldB _ => if 4096 ≤ s.i.toNat + 2 then some ⟨.outOfBounds, max s.i.toNat 4096⟩ else none
  | .ldMemVx x | .ldVxMem x =>
    if 4096 ≤ s.i.toNat + x.val then some ⟨.outOfBounds, max s.i.toNat 4096⟩ else none
  | .skp x | .sknp x =>
    if 15 < (s.readV x).toNat then some ⟨.outOfBounds, (s.readV x).toNat⟩ else none
  | .cls | .jp _ | .seImm _ _ | .sneImm _ _ | .seReg _ _ | .ldImm _ _ | .addImm _ _ | .ldReg _ _ | .orReg _ _
  | .andReg _ _ | .xorReg _ _ | .addReg _ _ | .sub _ _ | .shr _ | .subn _ _ | .shl _ | .sneReg _ _ | .ldI _
  | .jpV0 _ | .rnd _ _ | .ldVxDt _ | .ldVxK _ | .ldDtVx _ | .ldStVx _ | .addI _ | .ldF _ => none

/-- The registers an instruction may write (10_state.md R23, R24): its destination `V[x]`, VF where it sets a flag,
and `V[0]`..`V[x]` for Fx65. -/
def mayWriteReg (r : Reg) : Instr → Bool
  | .ldImm x _ | .addImm x _ | .ldReg x _ | .orReg x _ | .andReg x _ | .xorReg x _ | .rnd x _ | .ldVxDt x =>
    decide (r = x)
  | .addReg x _ | .sub x _ | .shr x | .subn x _ | .shl x => decide (r = x) || decide (r = 15)
  | .drw _ _ _ => decide (r = 15)
  | .ldVxMem x => decide (r.val ≤ x.val)
  | .cls | .ret | .jp _ | .call _ | .seImm _ _ | .sneImm _ _ | .seReg _ _ | .sneReg _ _ | .ldI _ | .jpV0 _
  | .skp _ | .sknp _ | .ldVxK _ | .ldDtVx _ | .ldStVx _ | .addI _ | .ldF _ | .ldB _ | .ldMemVx _ => false

/-! ## Words and events -/

/-- A row of the opcode map (30_encoding.md R95): exactly the words with these fixed bits decode so. -/
def Selects (pat mask : Word) (f : Word → Instr) : Prop := ∀ w, w &&& mask = pat ↔ decodeWord w = some (f w)

/-- The word at `PC`, high byte first (20_memory.md R64). -/
def wordAtPc (s : State) : Word := wordOfBytes (s.byteAt s.pc.toNat) (s.byteAt (s.pc.toNat + 1))

/-- The next event is a Step, listed or by default (log 4). -/
def NextIsStep (s : State) : Prop := s.events = [] ∨ ∃ es, s.events = .step :: es

/-- A Step is next and enabled (R140). -/
def StepReady (s : State) : Prop := NextIsStep s ∧ s.mode = .running ∧ s.loaded = true

/-! ## Sprites -/

/-- The sprite bit that lands on a pixel: some row `r` and column `c` of the sprite, with bit `7 - c` of the row set,
reach it modulo the screen's size (40_display.md R122, R123). -/
def spriteCovers (x0 y0 : Nat) (rows : List Byte) (px : Fin 64) (py : Fin 32) : Prop :=
  ∃ r c, r < rows.length ∧ c < 8 ∧ (rows.getD r 0).getLsbD (7 - c) = true ∧
    px.val = (x0 + c) % 64 ∧ py.val = (y0 + r) % 32

/-- One sprite and where it is drawn. -/
structure Sprite where
  x0 : Nat
  y0 : Nat
  rows : List Byte
  deriving DecidableEq, Repr

/-- The screen after sprites are drawn one after another, the first in the list first (R122). -/
def drawSprites (sprites : List Sprite) (pix : Screen) : Screen :=
  sprites.foldl (fun p d => (drawSprite d.x0 d.y0 d.rows p).1) pix

/-! ## The invariant -/

/-- A state with no program loaded is the reset state but for what key and diagnostic events write (R43, R292). -/
def AsReset (s : State) : Prop :=
  s.mem = [] ∧ s.v = State.reset.v ∧ s.i = 0 ∧ s.dt = 0 ∧ s.st = 0 ∧ s.pc = 0 ∧ s.sp = 0 ∧
    s.stack = State.reset.stack ∧ s.mode = .running ∧ s.fault = none

/-- What a fault record says of the state it froze (R243, R244): a fetch fault has no word and `PC` still at the
address; any other has its word and `PC` two past it; a Load never leaves a record. -/
def RecordFits (s : State) (f : FaultRecord) : Prop :=
  f.kind ≠ .loadTooLarge ∧
    match f.word with
    | none => f.kind = .outOfBounds ∧ s.pc = f.pc
    | some _ => s.pc = f.pc + 2

/-- The invariant: memory in canonical form, a fault recorded exactly while the core is Faulted (R44, R244), every
record fitting its state, and an unloaded core as reset left it. -/
structure Inv (s : State) : Prop where
  memory : Memory.wf s.config s.mem
  recorded : s.mode = .faulted ↔ s.fault ≠ none
  fits : ∀ f, s.fault = some f → RecordFits s f
  unloaded : s.loaded = false → AsReset s

/-- A safe run of `k` steps: it never stops and never leaves the core Faulted ("a faulted state is never a normal
end of a run", R245). -/
def SafeFor : Nat → State → Prop
  | 0, s => s.mode ≠ .faulted
  | k + 1, s => s.mode ≠ .faulted ∧ ∃ t, step s = .next t ∧ SafeFor k t

end Sys2Proof
end

