-- ==== Sys2Proof/Certificates/Slice0/Obligations.lean ====
section
/-! DEFINITION. The statements for the provers, one numbered rule or whole-machine property each. `exec` runs after
the fetch has moved `PC`, so "the address plus 2" is the `PC` an instruction finds (00_scope.md R11). A statement
whose docstring names a decision D<n> of the spec or a log entry rests on a choice, not on a rule. -/

open Sys2Proof Sys2Proof.Machine

/-! ## Reset and the invariant -/

/-- The Reset event of 70_reset_and_hazards.md R290 and the table of 10_state.md R47 (D13, D30; the three model
fields: log 13). Memory reads `FONT` in the font's bytes and 0 everywhere else, for every choice of the parameters. -/
def Obligations.ResetEventRestoresCore : Prop :=
  ∀ (s : State) (es : List Event), s.events = .reset :: es →
    ∃ t, step s = .next t ∧
      (∀ r, t.readV r = 0) ∧ t.i = 0 ∧ t.dt = 0 ∧ t.st = 0 ∧ t.pc = 0 ∧ t.sp = 0 ∧ (∀ j, t.slot j = 0) ∧
      (∀ k, t.keyAt k = false) ∧ (∀ px py, t.pixel px py = false) ∧
      (∀ a, t.byteAt a = if a < 16 * s.config.glyphHeight then s.config.font.getD a 0 else 0) ∧
      t.mode = .running ∧ t.loaded = false ∧ t.fault = none ∧
      t.config = s.config ∧ t.draws = s.draws ∧ t.events = es

/-- The invariant holds of the state after reset. -/
def Obligations.ResetMeetsInvariant : Prop := Inv State.reset

/-- Every step keeps the invariant: canonical memory, a fault recorded exactly while Faulted and fitting its state,
and an unloaded core as reset left it (R43, R44, R243, R244, R292). -/
def Obligations.StepKeepsInvariant : Prop := ∀ s t : State, Inv s → step s = .next t → Inv t

/-! ## Fetch, decode, execute -/

/-- 41_control_flow.md R141 (D1, D14): a Step whose word decodes runs that instruction, `PC` two past it, with the
event taken from the schedule (log 4). -/
def Obligations.StepRunsDecodedInstruction : Prop :=
  ∀ (s : State) (i : Instr), StepReady s → s.pc.toNat + 1 < 4096 → decodeWord (wordAtPc s) = some i →
    step s = exec i { s with pc := s.pc + 2, events := s.events.tail }

/-- 30_encoding.md R99 (D2, D4): an illegal word faults with the word as detail, `PC` two past it, and nothing else
changed. -/
def Obligations.IllegalWordTakesFault : Prop :=
  ∀ s : State, StepReady s → s.pc.toNat + 1 < 4096 → decodeWord (wordAtPc s) = none →
    ∃ t, step s = .next t ∧ t.mode = .faulted ∧ t.pc = s.pc + 2 ∧
      t.fault = some ⟨.illegalInstruction, s.pc, some (wordAtPc s), (wordAtPc s).toNat⟩ ∧
      Frame s t (fun p => p = .pc ∨ p = .mode ∨ p = .fault ∨ p = .events)

/-- R141, R240 (D2, D14): a fetch past 0xFFE faults with the first failing address, records no word, and leaves `PC`
where it was. -/
def Obligations.FetchFaultKeepsPc : Prop :=
  ∀ s : State, StepReady s → 0xFFE < s.pc.toNat →
    ∃ t, step s = .next t ∧ t.mode = .faulted ∧
      t.fault = some ⟨.outOfBounds, s.pc, none, max s.pc.toNat 4096⟩ ∧
      Frame s t (fun p => p = .mode ∨ p = .fault ∨ p = .events)

/-- 60_exceptions.md R243, R244 (D2, D14): faults are precise. Whatever faults a Step, everything but `PC`, `Mode`
and `Fault` (and the schedule) is as before; the record holds the fetch address, and either no word, with `PC` still
there, or the word fetched, with `PC` two past it. -/
def Obligations.FaultsArePrecise : Prop :=
  ∀ s t : State, StepReady s → step s = .next t → t.mode = .faulted →
    Frame s t (fun p => p = .pc ∨ p = .mode ∨ p = .fault ∨ p = .events) ∧
      ∃ f, t.fault = some f ∧ f.pc = s.pc ∧ f.kind ≠ .loadTooLarge ∧
        ((f.word = none ∧ t.pc = s.pc ∧ 0xFFE < s.pc.toNat) ∨
          (f.word = some (wordAtPc s) ∧ t.pc = s.pc + 2 ∧ s.pc.toNat ≤ 0xFFE))

/-- R240's table (D2, D3, D10, D15): every instruction answers a next state, and faults exactly where the table says,
with the table's kind and detail, its own address and word, and no other effect. -/
def Obligations.ExecFaultsExactlyAsTabled : Prop :=
  ∀ (i : Instr) (s : State), s.mode ≠ .faulted →
    ∃ t, exec i s = .next t ∧ (t.mode = .faulted ↔ tableFault s i ≠ none) ∧
      ∀ f, tableFault s i = some f →
        t.fault = some ⟨f.kind, s.pc - 2, some (encode i), f.detail⟩ ∧
          Frame s t (fun p => p = .mode ∨ p = .fault)

/-- R245, R246 (D22): a Faulted core stops at every event but Reset. -/
def Obligations.FaultedCoreStopsUntilReset : Prop :=
  ∀ s : State, s.mode = .faulted →
    ((∀ es, s.events ≠ .reset :: es) → step s = .fault .coreFaulted) ∧
      ∀ es, s.events = .reset :: es → ∃ t, step s = .next t ∧ t.mode = .running ∧ t.fault = none

/-- The "enabled when" column of R260 (D1, D11, D12, D20, D22): an event happens exactly when its row says so. -/
def Obligations.EventsHappenExactlyWhenEnabled : Prop :=
  ∀ s : State, (∃ t, step s = .next t) ↔
    match s.events with
    | [] => s.mode = .running ∧ s.loaded = true
    | .step :: _ => s.mode = .running ∧ s.loaded = true
    | .timerTick :: _ =>
      s.mode = .running ∨ (∃ r, s.mode = .waitingForKey r) ∧ s.config.timersDuringKeyWait = .run
    | .keyDown _ :: _ => s.mode ≠ .faulted
    | .keyUp _ :: _ => s.mode ≠ .faulted
    | .load _ :: _ => s.mode = .running ∧ s.loaded = false
    | .reset :: _ => True
    | .diagSetPixel _ _ :: _ => s.mode ≠ .faulted

/-! ## Display -/

/-- 40_display.md R120: 00E0 clears every pixel and changes nothing else, its word is exactly 0x00E0, and however many
sprites are drawn after it, the next one collides only on a pixel that it and one of them both set: with none drawn, on
nothing. -/
def Obligations.ClsClearsScreen : Prop :=
  ∀ s : State, ∃ t, exec .cls s = .next t ∧ (∀ px py, t.pixel px py = false) ∧
    Frame s t (fun p => ∃ px py, p = .pixel px py) ∧
    (∀ w, w = 0x00E0 ↔ decodeWord w = some .cls) ∧
    ∀ (drawn : List Sprite) (x0 y0 : Nat) (rows : List Byte),
      (∀ d ∈ drawn, d.rows.length ≤ 15) → rows.length ≤ 15 →
      (drawSprite x0 y0 rows (drawSprites drawn t.pix)).2 = true →
        ∃ d ∈ drawn, ∃ px py, spriteCovers d.x0 d.y0 d.rows px py ∧ spriteCovers x0 y0 rows px py

/-- 40_display.md R121 to R124: Dxyn whose rows lie in memory XORs the sprite onto the screen, wrapping at both edges,
and VF is 1 exactly when a set bit of the sprite met a set pixel of the screen before it. -/
def Obligations.DrwXorsSpriteAndReportsCollision : Prop :=
  ∀ (s : State) (x y : Reg) (n : Count), (n.val = 0 ∨ s.i.toNat + n.val ≤ 4096) →
    ∃ t, exec (.drw x y n) s = .next t ∧
      (∀ px py,
        (spriteCovers (s.readV x).toNat (s.readV y).toNat (s.loadBytes s.i.toNat n.val) px py →
          t.pixel px py = !s.pixel px py) ∧
        (¬ spriteCovers (s.readV x).toNat (s.readV y).toNat (s.loadBytes s.i.toNat n.val) px py →
          t.pixel px py = s.pixel px py)) ∧
      (t.readV 15 = 1 ∨ t.readV 15 = 0) ∧
      (t.readV 15 = 1 ↔ ∃ px py, s.pixel px py = true ∧
        spriteCovers (s.readV x).toNat (s.readV y).toNat (s.loadBytes s.i.toNat n.val) px py) ∧
      Frame s t (fun p => p = .reg 15 ∨ ∃ px py, p = .pixel px py)

/-- R122, R123 (log 17): drawing a sprite twice at one place restores the screen; if it has a set bit, one of the two
draws reports a collision, and on a screen that was clear it is the second. -/
def Obligations.SpriteDrawnTwiceRestoresScreen : Prop :=
  ∀ (x0 y0 : Nat) (rows : List Byte) (pix : Screen), rows.length ≤ 15 →
    (drawSprite x0 y0 rows (drawSprite x0 y0 rows pix).1).1 = pix ∧
      (((drawSprite x0 y0 rows pix).2 = true ∨
          (drawSprite x0 y0 rows (drawSprite x0 y0 rows pix).1).2 = true) ↔ ∃ row ∈ rows, row ≠ 0) ∧
      (pix = Screen.clear →
        (drawSprite x0 y0 rows pix).2 = false ∧
          ((drawSprite x0 y0 rows (drawSprite x0 y0 rows pix).1).2 = true ↔ ∃ row ∈ rows, row ≠ 0))

/-! ## Control flow and the stack -/

/-- 41_control_flow.md R142, R153: push stores at `SP` and moves it up, pop moves it down and returns that slot, both
fail at their end of the stack, and two pops return two pushed values in reverse. -/
def Obligations.StackIsLifo : Prop :=
  (∀ (s : State) (w : Word) (j : Fin 16), s.sp.val = j.val →
    ∃ t, push s w = .ok t ∧ t.slot j = w ∧ t.sp.val = j.val + 1 ∧
      Frame s t (fun p => p = .slot j ∨ p = .sp)) ∧
  (∀ (s : State) (w : Word), s.sp.val = 16 → push s w = .error ⟨.stackOverflow, 16⟩) ∧
  (∀ (s : State) (j : Fin 16), s.sp.val = j.val + 1 →
    ∃ t, pop s = .ok (s.slot j, t) ∧ t.sp.val = j.val ∧ Frame s t (fun p => p = .sp)) ∧
  (∀ s : State, s.sp.val = 0 → pop s = .error ⟨.stackUnderflow, 0⟩) ∧
  ∀ (s : State) (a b : Word), s.sp.val ≤ 14 →
    ∃ s1 s2 s3 s4, push s a = .ok s1 ∧ push s1 b = .ok s2 ∧ pop s2 = .ok (b, s3) ∧ pop s3 = .ok (a, s4) ∧
      s4.sp = s.sp ∧ (s.sp.val = 0 → pop s4 = .error ⟨.stackUnderflow, 0⟩)

/-- R143 (underflow taken as R244 says, D2): 00EE takes the top slot to `PC` and keeps the slot (D24); with an empty
stack it faults and leaves `SP`, the stack and `PC`. -/
def Obligations.RetPopsReturnAddress : Prop :=
  (∀ (s : State) (j : Fin 16), s.sp.val = j.val + 1 →
    ∃ t, exec .ret s = .next t ∧ t.pc = s.slot j ∧ t.sp.val = j.val ∧
      Frame s t (fun p => p = .pc ∨ p = .sp)) ∧
  ∀ s : State, s.sp.val = 0 →
    ∃ t, exec .ret s = .next t ∧ t.mode = .faulted ∧
      t.fault = some ⟨.stackUnderflow, s.pc - 2, some 0x00EE, 0⟩ ∧ Frame s t (fun p => p = .mode ∨ p = .fault)

/-- R145 (overflow taken as R244 says, D2): 2nnn pushes the address after it and jumps; with a full stack it faults
and leaves `SP`, the stack and `PC`. -/
def Obligations.CallPushesReturnAddress : Prop :=
  (∀ (s : State) (nnn : Addr) (j : Fin 16), s.sp.val = j.val →
    ∃ t, exec (.call nnn) s = .next t ∧ t.pc.toNat = nnn.toNat ∧ t.slot j = s.pc ∧ t.sp.val = j.val + 1 ∧
      Frame s t (fun p => p = .pc ∨ p = .sp ∨ p = .slot j)) ∧
  ∀ (s : State) (nnn : Addr), s.sp.val = 16 →
    ∃ t, exec (.call nnn) s = .next t ∧ t.mode = .faulted ∧
      t.fault = some ⟨.stackOverflow, s.pc - 2, some (encode (.call nnn)), 16⟩ ∧
      Frame s t (fun p => p = .mode ∨ p = .fault)

/-- A return undoes a call: `PC` and `SP` come back, and only the slot the call wrote differs (R143, R145). -/
def Obligations.RetUndoesCall : Prop :=
  ∀ (s t : State) (nnn : Addr) (j : Fin 16), s.sp.val = j.val → exec (.call nnn) s = .next t →
    ∃ u, exec .ret t = .next u ∧ Frame s u (fun p => p = .slot j)

/-- R144: 1nnn puts its address in `PC` and changes nothing else, and a target 0xFFF fails at the next fetch, not here;
its words are 0x1000 under 0xF000. -/
def Obligations.JpJumps : Prop :=
  Selects 0x1000 0xF000 (fun w => .jp (fieldNnn w)) ∧
  ∀ (s : State) (nnn : Addr),
    ∃ t, exec (.jp nnn) s = .next t ∧ t.pc.toNat = nnn.toNat ∧
      (nnn = 0xFFF → getWord t t.pc.toNat = .error ⟨.outOfBounds, 0x1000⟩) ∧ Frame s t (fun p => p = .pc)

/-- R152 (D17, no 12-bit mask): Bnnn adds `V[0]` to its address, the whole sum in `PC`. -/
def Obligations.JpV0AddsRegisterZero : Prop :=
  ∀ (s : State) (nnn : Addr),
    ∃ t, exec (.jpV0 nnn) s = .next t ∧ t.pc.toNat = nnn.toNat + (s.readV 0).toNat ∧
      Frame s t (fun p => p = .pc)

/-- R147, R148: 3xkk skips exactly when the register equals the immediate and 4xkk exactly when it does not; neither
changes anything but `PC`. -/
def Obligations.ImmediateSkips : Prop :=
  Selects 0x3000 0xF000 (fun w => .seImm (fieldX w) (fieldKk w)) ∧
  Selects 0x4000 0xF000 (fun w => .sneImm (fieldX w) (fieldKk w)) ∧
  ∀ (s : State) (x : Reg) (kk : Byte),
    (∃ t, exec (.seImm x kk) s = .next t ∧
      t.pc.toNat = (if s.readV x = kk then (s.pc.toNat + 2) % 65536 else s.pc.toNat) ∧
      Frame s t (fun p => p = .pc)) ∧
    ∃ t, exec (.sneImm x kk) s = .next t ∧
      t.pc.toNat = (if s.readV x = kk then s.pc.toNat else (s.pc.toNat + 2) % 65536) ∧
      Frame s t (fun p => p = .pc)

/-- R149, R150 (the low nibble is checked, D4): 5xy0 skips exactly when the registers are equal, so always for x = y,
and 9xy0 exactly when they differ; neither changes anything but `PC`. -/
def Obligations.RegisterSkips : Prop :=
  Selects 0x5000 0xF00F (fun w => .seReg (fieldX w) (fieldY w)) ∧
  Selects 0x9000 0xF00F (fun w => .sneReg (fieldX w) (fieldY w)) ∧
  ∀ (s : State) (x y : Reg),
    (∃ t, exec (.seReg x y) s = .next t ∧
      t.pc.toNat = (if s.readV x = s.readV y then (s.pc.toNat + 2) % 65536 else s.pc.toNat) ∧
      Frame s t (fun p => p = .pc)) ∧
    ∃ t, exec (.sneReg x y) s = .next t ∧
      t.pc.toNat = (if s.readV x = s.readV y then s.pc.toNat else (s.pc.toNat + 2) % 65536) ∧
      Frame s t (fun p => p = .pc)

/-- R220, R221 for a register that names a key (above 15 they fault, D10): Ex9E skips exactly when the key is down,
ExA1 exactly when it is up; neither changes anything but `PC`. -/
def Obligations.KeySkips : Prop :=
  ∀ (s : State) (x : Reg) (k : Key), (s.readV x).toNat = k.val →
    (∃ t, exec (.skp x) s = .next t ∧
      t.pc.toNat = (if s.keyAt k then (s.pc.toNat + 2) % 65536 else s.pc.toNat) ∧
      Frame s t (fun p => p = .pc)) ∧
    ∃ t, exec (.sknp x) s = .next t ∧
      t.pc.toNat = (if s.keyAt k then s.pc.toNat else (s.pc.toNat + 2) % 65536) ∧
      Frame s t (fun p => p = .pc)

/-! ## Register loads and the ALU -/

/-- 42_alu.md R172: 6xkk puts its byte in `V[x]` and changes nothing else. -/
def Obligations.LdImmSetsRegister : Prop :=
  Selects 0x6000 0xF000 (fun w => .ldImm (fieldX w) (fieldKk w)) ∧
  ∀ (s : State) (x : Reg) (kk : Byte),
    ∃ t, exec (.ldImm x kk) s = .next t ∧ t.readV x = kk ∧ Frame s t (fun p => p = .reg x)

/-- R173: 7xkk adds modulo 256 and changes nothing else, VF included. -/
def Obligations.AddImmWrapsWithoutFlag : Prop :=
  Selects 0x7000 0xF000 (fun w => .addImm (fieldX w) (fieldKk w)) ∧
  ∀ (s : State) (x : Reg) (kk : Byte),
    ∃ t, exec (.addImm x kk) s = .next t ∧
      (t.readV x).toNat = ((s.readV x).toNat + kk.toNat) % 256 ∧ Frame s t (fun p => p = .reg x)

/-- R174: 8xy0 copies `V[y]` to `V[x]` and changes nothing else. -/
def Obligations.LdRegCopiesRegister : Prop :=
  Selects 0x8000 0xF00F (fun w => .ldReg (fieldX w) (fieldY w)) ∧
  ∀ (s : State) (x y : Reg),
    ∃ t, exec (.ldReg x y) s = .next t ∧ t.readV x = s.readV y ∧ Frame s t (fun p => p = .reg x)

/-- R175 to R177 (VF is not reset, D29): each bit of `V[x]` becomes the OR, AND or XOR of the two registers' bits. -/
def Obligations.LogicWorksBitwise : Prop :=
  ∀ (s : State) (x y : Reg),
    (∃ t, exec (.orReg x y) s = .next t ∧ Frame s t (fun p => p = .reg x) ∧
      ∀ k, (t.readV x).getLsbD k = ((s.readV x).getLsbD k || (s.readV y).getLsbD k)) ∧
    (∃ t, exec (.andReg x y) s = .next t ∧ Frame s t (fun p => p = .reg x) ∧
      ∀ k, (t.readV x).getLsbD k = ((s.readV x).getLsbD k && (s.readV y).getLsbD k)) ∧
    ∃ t, exec (.xorReg x y) s = .next t ∧ Frame s t (fun p => p = .reg x) ∧
      ∀ k, (t.readV x).getLsbD k = ((s.readV x).getLsbD k ^^ (s.readV y).getLsbD k)

/-- R178 (operands latched and VF written first, D5, log 15): 8xy4 leaves the sum modulo 256 in `V[x]`, also for
x = F, and the carry in VF otherwise. -/
def Obligations.AddRegCarries : Prop :=
  ∀ (s : State) (x y : Reg),
    ∃ t, exec (.addReg x y) s = .next t ∧
      (t.readV x).toNat = ((s.readV x).toNat + (s.readV y).toNat) % 256 ∧
      (x ≠ 15 → (t.readV 15).toNat = if (s.readV x).toNat + (s.readV y).toNat > 255 then 1 else 0) ∧
      Frame s t (fun p => p = .reg x ∨ p = .reg 15)

/-- R179, R181 (latching and order, D5, log 15): 8xy5 and 8xy7 leave the difference modulo 256 in `V[x]`, also for
x = F, and in VF otherwise whether the minuend is strictly greater. -/
def Obligations.SubtractionsSetNotBorrow : Prop :=
  ∀ (s : State) (x y : Reg),
    (∃ t, exec (.sub x y) s = .next t ∧
      (t.readV x).toNat = ((s.readV x).toNat + 256 - (s.readV y).toNat) % 256 ∧
      (x ≠ 15 → (t.readV 15).toNat = if (s.readV y).toNat < (s.readV x).toNat then 1 else 0) ∧
      Frame s t (fun p => p = .reg x ∨ p = .reg 15)) ∧
    ∃ t, exec (.subn x y) s = .next t ∧
      (t.readV x).toNat = ((s.readV y).toNat + 256 - (s.readV x).toNat) % 256 ∧
      (x ≠ 15 → (t.readV 15).toNat = if (s.readV x).toNat < (s.readV y).toNat then 1 else 0) ∧
      Frame s t (fun p => p = .reg x ∨ p = .reg 15)

/-- R180, R182 (order for x = F: D5, log 15): the shifts halve and double `V[x]`, put the bit shifted out in VF when
x is not F, and are selected whatever the ignored y field holds (R96). -/
def Obligations.ShiftsMoveOneBit : Prop :=
  Selects 0x8006 0xF00F (fun w => .shr (fieldX w)) ∧
  Selects 0x800E 0xF00F (fun w => .shl (fieldX w)) ∧
  ∀ (s : State) (x : Reg),
    (∃ t, exec (.shr x) s = .next t ∧ (t.readV x).toNat = (s.readV x).toNat / 2 ∧
      (x ≠ 15 → (t.readV 15).toNat = (s.readV x).toNat % 2) ∧
      Frame s t (fun p => p = .reg x ∨ p = .reg 15)) ∧
    ∃ t, exec (.shl x) s = .next t ∧ (t.readV x).toNat = (s.readV x).toNat * 2 % 256 ∧
      (x ≠ 15 → (t.readV 15).toNat = (s.readV x).toNat / 128) ∧
      Frame s t (fun p => p = .reg x ∨ p = .reg 15)

/-- R183 (the draw is the free value of log 2): Cxkk leaves one fresh draw masked by `kk` in `V[x]`, 0 wherever `kk`
is 0, and changes nothing else but the count of draws. -/
def Obligations.RndMasksOneDraw : Prop :=
  ∀ (s : State) (x : Reg) (kk : Byte),
    ∃ t, exec (.rnd x kk) s = .next t ∧
      (∀ k, (t.readV x).getLsbD k = ((Config.randomByte s.draws).getLsbD k && kk.getLsbD k)) ∧
      t.draws = s.draws + 1 ∧ Frame s t (fun p => p = .reg x ∨ p = .draws)

/-! ## Address register and memory -/

/-- 43_index_memory.md R200: Annn puts its address in `I` and changes nothing else. -/
def Obligations.LdISetsAddress : Prop :=
  Selects 0xA000 0xF000 (fun w => .ldI (fieldNnn w)) ∧
  ∀ (s : State) (nnn : Addr),
    ∃ t, exec (.ldI nnn) s = .next t ∧ t.i.toNat = nnn.toNat ∧ Frame s t (fun p => p = .i)

/-- R201 (16 bits and no flag: D6, D29): Fx1E adds `V[x]` to `I` modulo 2^16 and changes nothing else. -/
def Obligations.AddIWrapsAtSixteenBits : Prop :=
  ∀ (s : State) (x : Reg),
    ∃ t, exec (.addI x) s = .next t ∧ t.i.toNat = (s.i.toNat + (s.readV x).toNat) % 65536 ∧
      Frame s t (fun p => p = .i)

/-- R202 (no nibble mask, D8): Fx29 puts `V[x]` times the glyph height in `I`. For heights the requirement of R40
allows nothing wraps; for others the model keeps 16 bits (log 11). -/
def Obligations.LdFPointsAtGlyph : Prop :=
  ∀ (s : State) (x : Reg),
    ∃ t, exec (.ldF x) s = .next t ∧ t.i.toNat = (s.readV x).toNat * s.config.glyphHeight % 65536 ∧
      (16 * s.config.glyphHeight ≤ 0x200 → t.i.toNat = (s.readV x).toNat * s.config.glyphHeight) ∧
      Frame s t (fun p => p = .i)

/-- R203: Fx33 with its three bytes in memory stores the hundreds, tens and units digits of `V[x]` at `I`, `I + 1`,
`I + 2`, and changes nothing else, no other byte of memory and not `I`. (The fault: ExecFaultsExactlyAsTabled.) -/
def Obligations.LdBStoresDecimalDigits : Prop :=
  ∀ (s : State) (x : Reg), s.i.toNat + 3 ≤ 4096 →
    ∃ t, exec (.ldB x) s = .next t ∧
      (t.byteAt s.i.toNat).toNat = (s.readV x).toNat / 100 ∧
      (t.byteAt (s.i.toNat + 1)).toNat = (s.readV x).toNat / 10 % 10 ∧
      (t.byteAt (s.i.toNat + 2)).toNat = (s.readV x).toNat % 10 ∧
      Frame s t (fun p => ∃ j, j < 3 ∧ p = .byte (s.i.toNat + j))

/-- R204 (`I` unchanged: D9): Fx55 with its bytes in memory stores `V[0]`..`V[x]` from `I` on, and changes nothing
else. (The fault: ExecFaultsExactlyAsTabled.) -/
def Obligations.LdMemVxStoresRegisters : Prop :=
  ∀ (s : State) (x : Reg), s.i.toNat + x.val < 4096 →
    ∃ t, exec (.ldMemVx x) s = .next t ∧
      (∀ r : Reg, r.val ≤ x.val → t.byteAt (s.i.toNat + r.val) = s.readV r) ∧
      Frame s t (fun p => ∃ j, j ≤ x.val ∧ p = .byte (s.i.toNat + j))

/-- R205 (`I` unchanged: D9): Fx65 with its bytes in memory loads `V[0]`..`V[x]` from `I` on, and changes nothing
else. (The fault: ExecFaultsExactlyAsTabled.) -/
def Obligations.LdVxMemLoadsRegisters : Prop :=
  ∀ (s : State) (x : Reg), s.i.toNat + x.val < 4096 →
    ∃ t, exec (.ldVxMem x) s = .next t ∧
      (∀ r : Reg, r.val ≤ x.val → t.readV r = s.byteAt (s.i.toNat + r.val)) ∧
      Frame s t (fun p => ∃ r : Reg, r.val ≤ x.val ∧ p = .reg r)

/-- R204 and R205 together: whatever the registers hold in between, Fx65 brings back what Fx55 stored. -/
def Obligations.LoadRestoresStoredRegisters : Prop :=
  ∀ (s t : State) (x : Reg) (v : Vector Byte 16), s.i.toNat + x.val < 4096 → exec (.ldMemVx x) s = .next t →
    ∃ u, exec (.ldVxMem x) { t with v := v } = .next u ∧
      ∀ r : Reg, (r.val ≤ x.val → u.readV r = s.readV r) ∧ (x.val < r.val → u.readV r = v[r.val])

/-- 20_memory.md R77: what Fx55 or Fx33 stores over the word at `PC`, over both of its bytes or one, is what the very
next fetch reads, with no fence. -/
def Obligations.StoredCodeIsFetched : Prop :=
  (∀ (s : State) (x : Reg), s.i.toNat + x.val < 4096 → s.pc.toNat + 1 < 4096 →
    ∃ t hi lo, exec (.ldMemVx x) s = .next t ∧ t.pc = s.pc ∧ getWord t t.pc.toNat = .ok (wordOfBytes hi lo) ∧
      ∀ r : Reg, r.val ≤ x.val →
        (s.pc.toNat = s.i.toNat + r.val → hi = s.readV r) ∧ (s.pc.toNat + 1 = s.i.toNat + r.val → lo = s.readV r)) ∧
  ∀ (s : State) (x : Reg), s.i.toNat + 3 ≤ 4096 → s.pc.toNat + 1 < 4096 →
    ∃ t hi lo, exec (.ldB x) s = .next t ∧ t.pc = s.pc ∧ getWord t t.pc.toNat = .ok (wordOfBytes hi lo) ∧
      ∀ j d, (j, d) ∈ [(0, (s.readV x).toNat / 100), (1, (s.readV x).toNat / 10 % 10), (2, (s.readV x).toNat % 10)] →
        (s.pc.toNat = s.i.toNat + j → hi.toNat = d) ∧ (s.pc.toNat + 1 = s.i.toNat + j → lo.toNat = d)

/-! ## Keyboard and timers -/

/-- 44_keyboard_timer.md R222, R224, R225: Fx07 reads the delay timer, Fx15 and Fx18 set the timers, and setting the
sound timer turns the sound output on or off at once; each changes nothing else. -/
def Obligations.TimerRegistersMove : Prop :=
  Selects 0xF007 0xF0FF (fun w => .ldVxDt (fieldX w)) ∧
  Selects 0xF015 0xF0FF (fun w => .ldDtVx (fieldX w)) ∧
  Selects 0xF018 0xF0FF (fun w => .ldStVx (fieldX w)) ∧
  ∀ (s : State) (x : Reg),
    (∃ t, exec (.ldVxDt x) s = .next t ∧ t.readV x = s.dt ∧ Frame s t (fun p => p = .reg x)) ∧
    (∃ t, exec (.ldDtVx x) s = .next t ∧ t.dt = s.readV x ∧ Frame s t (fun p => p = .dt)) ∧
    ∃ t, exec (.ldStVx x) s = .next t ∧ t.st = s.readV x ∧ (soundOn t = true ↔ s.readV x ≠ 0) ∧
      Frame s t (fun p => p = .st)

/-- R223 (D11): Fx0A makes the core wait for `V[x]`'s key, and changes nothing else: `V[x]` keeps its value. -/
def Obligations.LdVxKStartsWait : Prop :=
  ∀ (s : State) (x : Reg),
    ∃ t, exec (.ldVxK x) s = .next t ∧ t.mode = .waitingForKey x ∧ Frame s t (fun p => p = .mode)

/-- 60_exceptions.md R262, R263, R264 (D11, D23): a KeyDown of a key that was up completes a wait, its index in the
waiting register; every other KeyDown, and every KeyUp, writes the key's flag and nothing else. -/
def Obligations.KeyEventsWriteKeysAndCompleteWaits : Prop :=
  (∀ (s : State) (es : List Event) (k : Key) (r : Reg),
    s.events = .keyDown k :: es → s.mode = .waitingForKey r → s.keyAt k = false →
      ∃ t, step s = .next t ∧ t.keyAt k = true ∧ (t.readV r).toNat = k.val ∧ t.mode = .running ∧ t.events = es ∧
        Frame s t (fun p => p = .key k ∨ p = .reg r ∨ p = .mode ∨ p = .events)) ∧
  (∀ (s : State) (es : List Event) (k : Key),
    s.events = .keyDown k :: es → s.mode ≠ .faulted → (s.mode = .running ∨ s.keyAt k = true) →
      ∃ t, step s = .next t ∧ t.keyAt k = true ∧ t.events = es ∧
        Frame s t (fun p => p = .key k ∨ p = .events)) ∧
  ∀ (s : State) (es : List Event) (k : Key), s.events = .keyUp k :: es → s.mode ≠ .faulted →
    ∃ t, step s = .next t ∧ t.keyAt k = false ∧ t.events = es ∧ Frame s t (fun p => p = .key k ∨ p = .events)

/-- R273 (D11): in a key wait only the timers, the keys, the diagnostic pixels and the waiting register can change,
that register not before the wait ends, and nothing but a KeyDown of an up key (or Reset) ends it. -/
def Obligations.WaitHoldsTheCore : Prop :=
  ∀ (s t : State) (r : Reg), s.mode = .waitingForKey r → (∀ es, s.events ≠ .reset :: es) → step s = .next t →
    Frame s t (fun p => p = .dt ∨ p = .st ∨ (∃ k, p = .key k) ∨ (∃ px py, p = .pixel px py) ∨ p = .reg r ∨
      p = .mode ∨ p = .events) ∧
    ((t.mode = .waitingForKey r ∧ t.readV r = s.readV r) ∨
      (t.mode = .running ∧ ∃ k es, s.events = .keyDown k :: es ∧ s.keyAt k = false))

/-- R260, R266 (D12, D19): wherever its row enables it, Running or in a key wait with the timers running, a TimerTick
takes each timer down by one, never below zero, and changes nothing else, the wait included. -/
def Obligations.TimerTickCountsDown : Prop :=
  ∀ (s : State) (es : List Event), s.events = .timerTick :: es →
    (s.mode = .running ∨ (∃ r, s.mode = .waitingForKey r) ∧ s.config.timersDuringKeyWait = .run) →
    ∃ t, step s = .next t ∧ t.dt.toNat = s.dt.toNat - 1 ∧ t.st.toNat = s.st.toNat - 1 ∧ t.events = es ∧
      Frame s t (fun p => p = .dt ∨ p = .st ∨ p = .events)

/-- R266, R270: after n ticks the sound output is on exactly while fewer ticks than `ST` have passed. -/
def Obligations.SoundLastsAsManyTicksAsItsTimer : Prop :=
  ∀ (s : State) (n : Nat), soundOn (timerTick^[n] s) = true ↔ n < s.st.toNat

/-! ## The host's side -/

/-- 70_reset_and_hazards.md R292 (D20, D31): a Load that fits copies the image to 0x200, enters it, and changes
nothing else; one that does not is reported with its length and changes nothing. -/
def Obligations.LoadCopiesImageOrReports : Prop :=
  ∀ (s : State) (es : List Event) (image : List Byte),
    s.events = .load image :: es → s.mode = .running → s.loaded = false →
    ∃ t, step s = .next t ∧ t.events = es ∧
      (image.length + 0x200 ≤ 4096 →
        t.pc = 0x200 ∧ t.loaded = true ∧ (∀ j, j < image.length → t.byteAt (0x200 + j) = image.getD j 0) ∧
        hostReport s (.load image) = none ∧
        Frame s t (fun p => p = .pc ∨ p = .loaded ∨ p = .events ∨ ∃ j, j < image.length ∧ p = .byte (0x200 + j))) ∧
      (4096 < image.length + 0x200 →
        hostReport s (.load image) = some (.loadTooLarge image.length) ∧ Frame s t (fun p => p = .events))

/-- R268, R269 (D25): inside the screen the read port answers the pixel and DiagSetPixel sets it; outside, both
report OutOfBounds and nothing changes. -/
def Obligations.ScreenPortsDoNotWrap : Prop :=
  (∀ (s : State) (px : Fin 64) (py : Fin 32), isSet s px.val py.val = .ok (s.pixel px py)) ∧
  (∀ (s : State) (px py : Nat), 64 ≤ px ∨ 32 ≤ py → isSet s px py = .error .outOfBounds) ∧
  (∀ (s : State) (es : List Event) (px : Fin 64) (py : Fin 32),
    s.events = .diagSetPixel px.val py.val :: es → s.mode ≠ .faulted →
      ∃ t, step s = .next t ∧ t.pixel px py = true ∧ t.events = es ∧
        hostReport s (.diagSetPixel px.val py.val) = none ∧
        Frame s t (fun p => p = .pixel px py ∨ p = .events)) ∧
  ∀ (s : State) (es : List Event) (px py : Nat),
    s.events = .diagSetPixel px py :: es → s.mode ≠ .faulted → 64 ≤ px ∨ 32 ≤ py →
      ∃ t, step s = .next t ∧ t.events = es ∧ hostReport s (.diagSetPixel px py) = some .outOfBounds ∧
        Frame s t (fun p => p = .events)

/-- R272: a mapping has exactly 16 entries; the scan finds the lowest index whose entry matches, or nothing; only a
key that is found produces an event, with that index. -/
def Obligations.KeyMapFindsLowestIndex : Prop :=
  (∀ table : List PhysicalKey,
    (table.length = 16 → ∃ m, setMapping table = some m ∧ m.toList = table) ∧
    (table.length ≠ 16 → setMapping table = none)) ∧
  ∀ (m : Vector PhysicalKey 16) (p : PhysicalKey),
    (∀ k : Key, mapPhysicalToVirtual m p = some k ↔ m[k.val] = p ∧ ∀ j : Key, j < k → m[j.val] ≠ p) ∧
    (mapPhysicalToVirtual m p = none ↔ ∀ j : Key, m[j.val] ≠ p) ∧
    (∀ e, pressEvent m p = some e ↔ ∃ k, mapPhysicalToVirtual m p = some k ∧ e = .keyDown k) ∧
    (∀ e, releaseEvent m p = some e ↔ ∃ k, mapPhysicalToVirtual m p = some k ∧ e = .keyUp k)

/-! ## Memory -/

/-- 20_memory.md R62, R79: inside memory `set` then `get` gives the byte back and changes no other; outside, both fail
with the address and nothing changes. -/
def Obligations.MemorySetThenGet : Prop :=
  ∀ (s : State) (a : Nat) (b : Byte),
    (a < 4096 → memGet s a = .ok (s.byteAt a) ∧
      ∃ t, memSet s a b = .ok t ∧ memGet t a = .ok b ∧ Frame s t (fun p => p = .byte a)) ∧
    (4096 ≤ a → memGet s a = .error ⟨.outOfBounds, a⟩ ∧ memSet s a b = .error ⟨.outOfBounds, a⟩)

/-- R64: `get_word` is big-endian and fails at the first address outside memory, so the fetch fails exactly past
0xFFE. -/
def Obligations.GetWordIsBigEndian : Prop :=
  (∀ (s : State) (a : Nat),
    (a + 1 < 4096 → ∃ w, getWord s a = .ok w ∧ w.toNat = (s.byteAt a).toNat * 256 + (s.byteAt (a + 1)).toNat) ∧
    (a = 4095 → getWord s a = .error ⟨.outOfBounds, 4096⟩) ∧
    (4096 ≤ a → getWord s a = .error ⟨.outOfBounds, a⟩)) ∧
  ∀ s : State, (∃ t, getWord s s.pc.toNat = .error t) ↔ 0xFFE < s.pc.toNat

/-- The model's own form of memory: two canonical memories that read the same everywhere are equal. -/
def Obligations.CanonicalMemoryIsUnique : Prop :=
  ∀ (c : Config) (m n : Memory), Memory.wf c m → Memory.wf c n →
    (∀ a, Memory.read c m a = Memory.read c n a) → m = n

/-! ## Encoding -/

/-- R90 to R95 (D4): decoding the encoding of any well-formed instruction gives it back, from its word and from its
bytes whatever follows them. -/
def Obligations.DecodeEncodeAgree : Prop :=
  ∀ (i : Instr) (rest : List Byte), i.wellFormed = true →
    decodeWord (encode i) = some i ∧ decode (encodeBytes i ++ rest) = .ok (i, rest)

/-- R94, R96: encoding a decoded word gives the word back, but for the y field 8xy6 and 8xyE ignore (log 10). -/
def Obligations.EncodeDecodeAgree : Prop :=
  ∀ (w : Word) (i : Instr), decodeWord w = some i →
    encode i = w ∨ (∃ x, i = .shr x ∨ i = .shl x) ∧ encode i = w &&& 0xFF0F

/-- R95: the decoder accepts exactly the words some row of the opcode map selects, and no word selects two rows. -/
def Obligations.DecoderFollowsOpcodeMap : Prop :=
  ∀ w : Word,
    (decodeWord w = none ↔ ∀ r ∈ opcodeMap, r.selects w = false) ∧
    ∀ r ∈ opcodeMap, ∀ q ∈ opcodeMap, r.selects w = true → q.selects w = true → r = q

/-- R91 and R95, row by row (D4): the fields are the nibbles, the low byte and the low twelve bits of the word, and for
each of the 34 rows the words its match and mask select are exactly those that decode to the instruction the row names,
with the row's fields as its operands. -/
def Obligations.EachRowDecodesToItsInstruction : Prop :=
  (∀ w : Word, (fieldOp w).toNat = w.toNat / 4096 ∧ (fieldX w).val = w.toNat / 256 % 16 ∧
    (fieldY w).val = w.toNat / 16 % 16 ∧ (fieldN w).val = w.toNat % 16 ∧
    (fieldKk w).toNat = w.toNat % 256 ∧ (fieldNnn w).toNat = w.toNat % 4096) ∧
  Selects 0x00E0 0xFFFF (fun _ => .cls) ∧ Selects 0x00EE 0xFFFF (fun _ => .ret) ∧
  Selects 0x1000 0xF000 (fun w => .jp (fieldNnn w)) ∧ Selects 0x2000 0xF000 (fun w => .call (fieldNnn w)) ∧
  Selects 0x3000 0xF000 (fun w => .seImm (fieldX w) (fieldKk w)) ∧
  Selects 0x4000 0xF000 (fun w => .sneImm (fieldX w) (fieldKk w)) ∧
  Selects 0x5000 0xF00F (fun w => .seReg (fieldX w) (fieldY w)) ∧
  Selects 0x6000 0xF000 (fun w => .ldImm (fieldX w) (fieldKk w)) ∧
  Selects 0x7000 0xF000 (fun w => .addImm (fieldX w) (fieldKk w)) ∧
  Selects 0x8000 0xF00F (fun w => .ldReg (fieldX w) (fieldY w)) ∧
  Selects 0x8001 0xF00F (fun w => .orReg (fieldX w) (fieldY w)) ∧
  Selects 0x8002 0xF00F (fun w => .andReg (fieldX w) (fieldY w)) ∧
  Selects 0x8003 0xF00F (fun w => .xorReg (fieldX w) (fieldY w)) ∧
  Selects 0x8004 0xF00F (fun w => .addReg (fieldX w) (fieldY w)) ∧
  Selects 0x8005 0xF00F (fun w => .sub (fieldX w) (fieldY w)) ∧ Selects 0x8006 0xF00F (fun w => .shr (fieldX w)) ∧
  Selects 0x8007 0xF00F (fun w => .subn (fieldX w) (fieldY w)) ∧
  Selects 0x800E 0xF00F (fun w => .shl (fieldX w)) ∧
  Selects 0x9000 0xF00F (fun w => .sneReg (fieldX w) (fieldY w)) ∧
  Selects 0xA000 0xF000 (fun w => .ldI (fieldNnn w)) ∧ Selects 0xB000 0xF000 (fun w => .jpV0 (fieldNnn w)) ∧
  Selects 0xC000 0xF000 (fun w => .rnd (fieldX w) (fieldKk w)) ∧
  Selects 0xD000 0xF000 (fun w => .drw (fieldX w) (fieldY w) (fieldN w)) ∧
  Selects 0xE09E 0xF0FF (fun w => .skp (fieldX w)) ∧ Selects 0xE0A1 0xF0FF (fun w => .sknp (fieldX w)) ∧
  Selects 0xF007 0xF0FF (fun w => .ldVxDt (fieldX w)) ∧ Selects 0xF00A 0xF0FF (fun w => .ldVxK (fieldX w)) ∧
  Selects 0xF015 0xF0FF (fun w => .ldDtVx (fieldX w)) ∧ Selects 0xF018 0xF0FF (fun w => .ldStVx (fieldX w)) ∧
  Selects 0xF01E 0xF0FF (fun w => .addI (fieldX w)) ∧ Selects 0xF029 0xF0FF (fun w => .ldF (fieldX w)) ∧
  Selects 0xF033 0xF0FF (fun w => .ldB (fieldX w)) ∧ Selects 0xF055 0xF0FF (fun w => .ldMemVx (fieldX w)) ∧
  Selects 0xF065 0xF0FF (fun w => .ldVxMem (fieldX w))

/-- R97 (D4): the illegal words, family by family. -/
def Obligations.IllegalWordsByFamily : Prop :=
  ∀ w : Word, decodeWord w = none ↔
    (fieldOp w = 0x0 ∧ w ≠ 0x00E0 ∧ w ≠ 0x00EE) ∨
    ((fieldOp w = 0x5 ∨ fieldOp w = 0x9) ∧ fieldN w ≠ 0) ∨
    (fieldOp w = 0x8 ∧ (fieldN w).val ∈ [0x8, 0x9, 0xA, 0xB, 0xC, 0xD, 0xF]) ∨
    (fieldOp w = 0xE ∧ (fieldKk w).toNat ∉ [0x9E, 0xA1]) ∨
    (fieldOp w = 0xF ∧ (fieldKk w).toNat ∉ [0x07, 0x0A, 0x15, 0x18, 0x1E, 0x29, 0x33, 0x55, 0x65])

/-- Words written out from the table of R95, at least one of each format, and illegal ones of R97, decode as
95_test_vectors.md sections 2.1 and 2.4 (V-A1) say. -/
def Obligations.WrittenWordsDecode : Prop :=
  decodeWord 0x00E0 = some .cls ∧ decodeWord 0x00EE = some .ret ∧ decodeWord 0x1ABC = some (.jp 0xABC) ∧
  decodeWord 0x6FAB = some (.ldImm 15 0xAB) ∧
  decodeWord 0x5120 = some (.seReg 1 2) ∧ decodeWord 0x81F6 = some (.shr 1) ∧
  decodeWord 0xD12A = some (.drw 1 2 0xA) ∧ decodeWord 0xE1A1 = some (.sknp 1) ∧
  decodeWord 0xFF65 = some (.ldVxMem 0xF) ∧
  decodeWord 0x0000 = none ∧ decodeWord 0x5121 = none ∧ decodeWord 0x8128 = none ∧ decodeWord 0xF1FF = none

/-! ## Whole-machine rules -/

/-- Who writes what (20_memory.md R61, 40_display.md R125, 10_state.md R29 to R35, 44_keyboard_timer.md R226): only
the instructions named change each kind of state, and none writes the keys, the load flag, the parameters or the
schedule. -/
def Obligations.OnlyNamedInstructionsWrite : Prop :=
  ∀ (i : Instr) (s t : State), exec i s = .next t →
    ((∃ a, t.byteAt a ≠ s.byteAt a) → ∃ x, i = .ldB x ∨ i = .ldMemVx x) ∧
    ((∃ px py, t.pixel px py ≠ s.pixel px py) → i = .cls ∨ ∃ x y n, i = .drw x y n) ∧
    (t.i ≠ s.i → (∃ nnn, i = .ldI nnn) ∨ ∃ x, i = .addI x ∨ i = .ldF x) ∧
    (t.dt ≠ s.dt → ∃ x, i = .ldDtVx x) ∧ (t.st ≠ s.st → ∃ x, i = .ldStVx x) ∧
    (t.sp ≠ s.sp → i = .ret ∨ ∃ nnn, i = .call nnn) ∧
    (∀ j, t.slot j ≠ s.slot j → s.sp.val = j.val ∧ ∃ nnn, i = .call nnn) ∧
    (t.draws ≠ s.draws → ∃ x kk, i = .rnd x kk) ∧
    (∀ k, t.keyAt k = s.keyAt k) ∧ t.loaded = s.loaded ∧ t.config = s.config ∧ t.events = s.events

/-- 10_state.md R23, R24: an instruction changes no register but its destination, VF where it sets the flag, and
`V[0]`..`V[x]` for Fx65. -/
def Obligations.OnlyNamedRegistersChange : Prop :=
  ∀ (i : Instr) (s t : State) (r : Reg), exec i s = .next t → t.readV r ≠ s.readV r → mayWriteReg r i = true

/-- R33: no instruction observes a stack slot at or above `SP`: two states that differ in one such slot run alike and
end differing in that slot at most. -/
def Obligations.DeadStackSlotsAreUnobserved : Prop :=
  ∀ (i : Instr) (s : State) (j : Fin 16) (w : Word), s.sp.val ≤ j.val →
    ∃ t u, exec i s = .next t ∧ exec i { s with stack := s.stack.set j.val w } = .next u ∧
      Frame t u (fun p => p = .slot j)

/-- 70_reset_and_hazards.md R294 (the idiom for a finished program, D26): a Step at a jump to its own address changes
nothing. -/
def Obligations.SelfJumpHolds : Prop :=
  ∀ (s : State) (nnn : Addr), StepReady s → s.pc.toNat + 1 < 4096 → nnn.toNat = s.pc.toNat →
    wordAtPc s = encode (.jp nnn) → ∃ t, step s = .next t ∧ Frame s t (fun p => p = .events)
end

