-- ==== Sys2Proof/Laws/State.lean ====
section
/-! SUPPORT. One lemma per field per update of the state: what an update leaves alone. -/

namespace Sys2Proof.Machine

/-! ## `V[r] <- b` -/

@[simp] theorem State.writeV_mem (s : State) (r : Reg) (b : Byte) :
    (s.writeV r b).mem = s.mem := rfl
@[simp] theorem State.writeV_i (s : State) (r : Reg) (b : Byte) :
    (s.writeV r b).i = s.i := rfl
@[simp] theorem State.writeV_dt (s : State) (r : Reg) (b : Byte) :
    (s.writeV r b).dt = s.dt := rfl
@[simp] theorem State.writeV_st (s : State) (r : Reg) (b : Byte) :
    (s.writeV r b).st = s.st := rfl
@[simp] theorem State.writeV_pc (s : State) (r : Reg) (b : Byte) :
    (s.writeV r b).pc = s.pc := rfl
@[simp] theorem State.writeV_sp (s : State) (r : Reg) (b : Byte) :
    (s.writeV r b).sp = s.sp := rfl
@[simp] theorem State.writeV_stack (s : State) (r : Reg) (b : Byte) :
    (s.writeV r b).stack = s.stack := rfl
@[simp] theorem State.writeV_key (s : State) (r : Reg) (b : Byte) :
    (s.writeV r b).key = s.key := rfl
@[simp] theorem State.writeV_pix (s : State) (r : Reg) (b : Byte) :
    (s.writeV r b).pix = s.pix := rfl
@[simp] theorem State.writeV_mode (s : State) (r : Reg) (b : Byte) :
    (s.writeV r b).mode = s.mode := rfl
@[simp] theorem State.writeV_loaded (s : State) (r : Reg) (b : Byte) :
    (s.writeV r b).loaded = s.loaded := rfl
@[simp] theorem State.writeV_fault (s : State) (r : Reg) (b : Byte) :
    (s.writeV r b).fault = s.fault := rfl
@[simp] theorem State.writeV_config (s : State) (r : Reg) (b : Byte) :
    (s.writeV r b).config = s.config := rfl
@[simp] theorem State.writeV_draws (s : State) (r : Reg) (b : Byte) :
    (s.writeV r b).draws = s.draws := rfl
@[simp] theorem State.writeV_events (s : State) (r : Reg) (b : Byte) :
    (s.writeV r b).events = s.events := rfl

/-! ## `Mem[a] <- b` -/

@[simp] theorem State.setByte_v (s : State) (a : Nat) (b : Byte) :
    (s.setByte a b).v = s.v := rfl
@[simp] theorem State.setByte_i (s : State) (a : Nat) (b : Byte) :
    (s.setByte a b).i = s.i := rfl
@[simp] theorem State.setByte_dt (s : State) (a : Nat) (b : Byte) :
    (s.setByte a b).dt = s.dt := rfl
@[simp] theorem State.setByte_st (s : State) (a : Nat) (b : Byte) :
    (s.setByte a b).st = s.st := rfl
@[simp] theorem State.setByte_pc (s : State) (a : Nat) (b : Byte) :
    (s.setByte a b).pc = s.pc := rfl
@[simp] theorem State.setByte_sp (s : State) (a : Nat) (b : Byte) :
    (s.setByte a b).sp = s.sp := rfl
@[simp] theorem State.setByte_stack (s : State) (a : Nat) (b : Byte) :
    (s.setByte a b).stack = s.stack := rfl
@[simp] theorem State.setByte_key (s : State) (a : Nat) (b : Byte) :
    (s.setByte a b).key = s.key := rfl
@[simp] theorem State.setByte_pix (s : State) (a : Nat) (b : Byte) :
    (s.setByte a b).pix = s.pix := rfl
@[simp] theorem State.setByte_mode (s : State) (a : Nat) (b : Byte) :
    (s.setByte a b).mode = s.mode := rfl
@[simp] theorem State.setByte_loaded (s : State) (a : Nat) (b : Byte) :
    (s.setByte a b).loaded = s.loaded := rfl
@[simp] theorem State.setByte_fault (s : State) (a : Nat) (b : Byte) :
    (s.setByte a b).fault = s.fault := rfl
@[simp] theorem State.setByte_config (s : State) (a : Nat) (b : Byte) :
    (s.setByte a b).config = s.config := rfl
@[simp] theorem State.setByte_draws (s : State) (a : Nat) (b : Byte) :
    (s.setByte a b).draws = s.draws := rfl
@[simp] theorem State.setByte_events (s : State) (a : Nat) (b : Byte) :
    (s.setByte a b).events = s.events := rfl

/-! ## Stores of several bytes -/

@[simp] theorem State.storeBytes_v (s : State) (a : Nat) (bs : List Byte) :
    (s.storeBytes a bs).v = s.v := by
  induction bs generalizing s a with
  | nil => rfl
  | cons b bs ih => simp [State.storeBytes, ih]
@[simp] theorem State.storeBytes_i (s : State) (a : Nat) (bs : List Byte) :
    (s.storeBytes a bs).i = s.i := by
  induction bs generalizing s a with
  | nil => rfl
  | cons b bs ih => simp [State.storeBytes, ih]
@[simp] theorem State.storeBytes_dt (s : State) (a : Nat) (bs : List Byte) :
    (s.storeBytes a bs).dt = s.dt := by
  induction bs generalizing s a with
  | nil => rfl
  | cons b bs ih => simp [State.storeBytes, ih]
@[simp] theorem State.storeBytes_st (s : State) (a : Nat) (bs : List Byte) :
    (s.storeBytes a bs).st = s.st := by
  induction bs generalizing s a with
  | nil => rfl
  | cons b bs ih => simp [State.storeBytes, ih]
@[simp] theorem State.storeBytes_pc (s : State) (a : Nat) (bs : List Byte) :
    (s.storeBytes a bs).pc = s.pc := by
  induction bs generalizing s a with
  | nil => rfl
  | cons b bs ih => simp [State.storeBytes, ih]
@[simp] theorem State.storeBytes_sp (s : State) (a : Nat) (bs : List Byte) :
    (s.storeBytes a bs).sp = s.sp := by
  induction bs generalizing s a with
  | nil => rfl
  | cons b bs ih => simp [State.storeBytes, ih]
@[simp] theorem State.storeBytes_stack (s : State) (a : Nat) (bs : List Byte) :
    (s.storeBytes a bs).stack = s.stack := by
  induction bs generalizing s a with
  | nil => rfl
  | cons b bs ih => simp [State.storeBytes, ih]
@[simp] theorem State.storeBytes_key (s : State) (a : Nat) (bs : List Byte) :
    (s.storeBytes a bs).key = s.key := by
  induction bs generalizing s a with
  | nil => rfl
  | cons b bs ih => simp [State.storeBytes, ih]
@[simp] theorem State.storeBytes_pix (s : State) (a : Nat) (bs : List Byte) :
    (s.storeBytes a bs).pix = s.pix := by
  induction bs generalizing s a with
  | nil => rfl
  | cons b bs ih => simp [State.storeBytes, ih]
@[simp] theorem State.storeBytes_mode (s : State) (a : Nat) (bs : List Byte) :
    (s.storeBytes a bs).mode = s.mode := by
  induction bs generalizing s a with
  | nil => rfl
  | cons b bs ih => simp [State.storeBytes, ih]
@[simp] theorem State.storeBytes_loaded (s : State) (a : Nat) (bs : List Byte) :
    (s.storeBytes a bs).loaded = s.loaded := by
  induction bs generalizing s a with
  | nil => rfl
  | cons b bs ih => simp [State.storeBytes, ih]
@[simp] theorem State.storeBytes_fault (s : State) (a : Nat) (bs : List Byte) :
    (s.storeBytes a bs).fault = s.fault := by
  induction bs generalizing s a with
  | nil => rfl
  | cons b bs ih => simp [State.storeBytes, ih]
@[simp] theorem State.storeBytes_config (s : State) (a : Nat) (bs : List Byte) :
    (s.storeBytes a bs).config = s.config := by
  induction bs generalizing s a with
  | nil => rfl
  | cons b bs ih => simp [State.storeBytes, ih]
@[simp] theorem State.storeBytes_draws (s : State) (a : Nat) (bs : List Byte) :
    (s.storeBytes a bs).draws = s.draws := by
  induction bs generalizing s a with
  | nil => rfl
  | cons b bs ih => simp [State.storeBytes, ih]
@[simp] theorem State.storeBytes_events (s : State) (a : Nat) (bs : List Byte) :
    (s.storeBytes a bs).events = s.events := by
  induction bs generalizing s a with
  | nil => rfl
  | cons b bs ih => simp [State.storeBytes, ih]

/-! ## Key flags -/

@[simp] theorem State.setKey_mem (s : State) (k : Key) (b : Bool) :
    (s.setKey k b).mem = s.mem := rfl
@[simp] theorem State.setKey_v (s : State) (k : Key) (b : Bool) :
    (s.setKey k b).v = s.v := rfl
@[simp] theorem State.setKey_i (s : State) (k : Key) (b : Bool) :
    (s.setKey k b).i = s.i := rfl
@[simp] theorem State.setKey_dt (s : State) (k : Key) (b : Bool) :
    (s.setKey k b).dt = s.dt := rfl
@[simp] theorem State.setKey_st (s : State) (k : Key) (b : Bool) :
    (s.setKey k b).st = s.st := rfl
@[simp] theorem State.setKey_pc (s : State) (k : Key) (b : Bool) :
    (s.setKey k b).pc = s.pc := rfl
@[simp] theorem State.setKey_sp (s : State) (k : Key) (b : Bool) :
    (s.setKey k b).sp = s.sp := rfl
@[simp] theorem State.setKey_stack (s : State) (k : Key) (b : Bool) :
    (s.setKey k b).stack = s.stack := rfl
@[simp] theorem State.setKey_pix (s : State) (k : Key) (b : Bool) :
    (s.setKey k b).pix = s.pix := rfl
@[simp] theorem State.setKey_mode (s : State) (k : Key) (b : Bool) :
    (s.setKey k b).mode = s.mode := rfl
@[simp] theorem State.setKey_loaded (s : State) (k : Key) (b : Bool) :
    (s.setKey k b).loaded = s.loaded := rfl
@[simp] theorem State.setKey_fault (s : State) (k : Key) (b : Bool) :
    (s.setKey k b).fault = s.fault := rfl
@[simp] theorem State.setKey_config (s : State) (k : Key) (b : Bool) :
    (s.setKey k b).config = s.config := rfl
@[simp] theorem State.setKey_draws (s : State) (k : Key) (b : Bool) :
    (s.setKey k b).draws = s.draws := rfl
@[simp] theorem State.setKey_events (s : State) (k : Key) (b : Bool) :
    (s.setKey k b).events = s.events := rfl

/-! ## Skips -/

@[simp] theorem State.skipIf_mem (s : State) (c : Bool) : (s.skipIf c).mem = s.mem := by
  cases c <;> rfl
@[simp] theorem State.skipIf_v (s : State) (c : Bool) : (s.skipIf c).v = s.v := by
  cases c <;> rfl
@[simp] theorem State.skipIf_i (s : State) (c : Bool) : (s.skipIf c).i = s.i := by
  cases c <;> rfl
@[simp] theorem State.skipIf_dt (s : State) (c : Bool) : (s.skipIf c).dt = s.dt := by
  cases c <;> rfl
@[simp] theorem State.skipIf_st (s : State) (c : Bool) : (s.skipIf c).st = s.st := by
  cases c <;> rfl
@[simp] theorem State.skipIf_sp (s : State) (c : Bool) : (s.skipIf c).sp = s.sp := by
  cases c <;> rfl
@[simp] theorem State.skipIf_stack (s : State) (c : Bool) : (s.skipIf c).stack = s.stack := by
  cases c <;> rfl
@[simp] theorem State.skipIf_key (s : State) (c : Bool) : (s.skipIf c).key = s.key := by
  cases c <;> rfl
@[simp] theorem State.skipIf_pix (s : State) (c : Bool) : (s.skipIf c).pix = s.pix := by
  cases c <;> rfl
@[simp] theorem State.skipIf_mode (s : State) (c : Bool) : (s.skipIf c).mode = s.mode := by
  cases c <;> rfl
@[simp] theorem State.skipIf_loaded (s : State) (c : Bool) : (s.skipIf c).loaded = s.loaded := by
  cases c <;> rfl
@[simp] theorem State.skipIf_fault (s : State) (c : Bool) : (s.skipIf c).fault = s.fault := by
  cases c <;> rfl
@[simp] theorem State.skipIf_config (s : State) (c : Bool) : (s.skipIf c).config = s.config := by
  cases c <;> rfl
@[simp] theorem State.skipIf_draws (s : State) (c : Bool) : (s.skipIf c).draws = s.draws := by
  cases c <;> rfl
@[simp] theorem State.skipIf_events (s : State) (c : Bool) : (s.skipIf c).events = s.events := by
  cases c <;> rfl

/-! ## Taking a fault -/

@[simp] theorem takeFault_mem (s : State) (t : Trap) (a : Word) (w : Option Word) :
    (takeFault s t a w).mem = s.mem := rfl
@[simp] theorem takeFault_v (s : State) (t : Trap) (a : Word) (w : Option Word) :
    (takeFault s t a w).v = s.v := rfl
@[simp] theorem takeFault_i (s : State) (t : Trap) (a : Word) (w : Option Word) :
    (takeFault s t a w).i = s.i := rfl
@[simp] theorem takeFault_dt (s : State) (t : Trap) (a : Word) (w : Option Word) :
    (takeFault s t a w).dt = s.dt := rfl
@[simp] theorem takeFault_st (s : State) (t : Trap) (a : Word) (w : Option Word) :
    (takeFault s t a w).st = s.st := rfl
@[simp] theorem takeFault_pc (s : State) (t : Trap) (a : Word) (w : Option Word) :
    (takeFault s t a w).pc = s.pc := rfl
@[simp] theorem takeFault_sp (s : State) (t : Trap) (a : Word) (w : Option Word) :
    (takeFault s t a w).sp = s.sp := rfl
@[simp] theorem takeFault_stack (s : State) (t : Trap) (a : Word) (w : Option Word) :
    (takeFault s t a w).stack = s.stack := rfl
@[simp] theorem takeFault_key (s : State) (t : Trap) (a : Word) (w : Option Word) :
    (takeFault s t a w).key = s.key := rfl
@[simp] theorem takeFault_pix (s : State) (t : Trap) (a : Word) (w : Option Word) :
    (takeFault s t a w).pix = s.pix := rfl
@[simp] theorem takeFault_loaded (s : State) (t : Trap) (a : Word) (w : Option Word) :
    (takeFault s t a w).loaded = s.loaded := rfl
@[simp] theorem takeFault_config (s : State) (t : Trap) (a : Word) (w : Option Word) :
    (takeFault s t a w).config = s.config := rfl
@[simp] theorem takeFault_draws (s : State) (t : Trap) (a : Word) (w : Option Word) :
    (takeFault s t a w).draws = s.draws := rfl
@[simp] theorem takeFault_events (s : State) (t : Trap) (a : Word) (w : Option Word) :
    (takeFault s t a w).events = s.events := rfl
@[simp] theorem takeFault_mode (s : State) (t : Trap) (a : Word) (w : Option Word) :
    (takeFault s t a w).mode = .faulted := rfl
@[simp] theorem takeFault_fault (s : State) (t : Trap) (a : Word) (w : Option Word) :
    (takeFault s t a w).fault = some ⟨t.kind, a, w, t.detail⟩ := rfl
@[simp] theorem raise_mem (i : Instr) (t : Trap) (s : State) :
    (raise i t s).mem = s.mem := rfl
@[simp] theorem raise_v (i : Instr) (t : Trap) (s : State) :
    (raise i t s).v = s.v := rfl
@[simp] theorem raise_i (i : Instr) (t : Trap) (s : State) :
    (raise i t s).i = s.i := rfl
@[simp] theorem raise_dt (i : Instr) (t : Trap) (s : State) :
    (raise i t s).dt = s.dt := rfl
@[simp] theorem raise_st (i : Instr) (t : Trap) (s : State) :
    (raise i t s).st = s.st := rfl
@[simp] theorem raise_pc (i : Instr) (t : Trap) (s : State) :
    (raise i t s).pc = s.pc := rfl
@[simp] theorem raise_sp (i : Instr) (t : Trap) (s : State) :
    (raise i t s).sp = s.sp := rfl
@[simp] theorem raise_stack (i : Instr) (t : Trap) (s : State) :
    (raise i t s).stack = s.stack := rfl
@[simp] theorem raise_key (i : Instr) (t : Trap) (s : State) :
    (raise i t s).key = s.key := rfl
@[simp] theorem raise_pix (i : Instr) (t : Trap) (s : State) :
    (raise i t s).pix = s.pix := rfl
@[simp] theorem raise_loaded (i : Instr) (t : Trap) (s : State) :
    (raise i t s).loaded = s.loaded := rfl
@[simp] theorem raise_config (i : Instr) (t : Trap) (s : State) :
    (raise i t s).config = s.config := rfl
@[simp] theorem raise_draws (i : Instr) (t : Trap) (s : State) :
    (raise i t s).draws = s.draws := rfl
@[simp] theorem raise_events (i : Instr) (t : Trap) (s : State) :
    (raise i t s).events = s.events := rfl
@[simp] theorem raise_mode (i : Instr) (t : Trap) (s : State) : (raise i t s).mode = .faulted := rfl
@[simp] theorem raise_fault (i : Instr) (t : Trap) (s : State) :
    (raise i t s).fault = some ⟨t.kind, s.pc - 2, some (encode i), t.detail⟩ := rfl

/-! ## Flag and result -/

@[simp] theorem State.writeFlagAndResult_mem (s : State) (x : Reg) (f : Bool) (b : Byte) :
    (s.writeFlagAndResult x f b).mem = s.mem := rfl
@[simp] theorem State.writeFlagAndResult_i (s : State) (x : Reg) (f : Bool) (b : Byte) :
    (s.writeFlagAndResult x f b).i = s.i := rfl
@[simp] theorem State.writeFlagAndResult_dt (s : State) (x : Reg) (f : Bool) (b : Byte) :
    (s.writeFlagAndResult x f b).dt = s.dt := rfl
@[simp] theorem State.writeFlagAndResult_st (s : State) (x : Reg) (f : Bool) (b : Byte) :
    (s.writeFlagAndResult x f b).st = s.st := rfl
@[simp] theorem State.writeFlagAndResult_pc (s : State) (x : Reg) (f : Bool) (b : Byte) :
    (s.writeFlagAndResult x f b).pc = s.pc := rfl
@[simp] theorem State.writeFlagAndResult_sp (s : State) (x : Reg) (f : Bool) (b : Byte) :
    (s.writeFlagAndResult x f b).sp = s.sp := rfl
@[simp] theorem State.writeFlagAndResult_stack (s : State) (x : Reg) (f : Bool) (b : Byte) :
    (s.writeFlagAndResult x f b).stack = s.stack := rfl
@[simp] theorem State.writeFlagAndResult_key (s : State) (x : Reg) (f : Bool) (b : Byte) :
    (s.writeFlagAndResult x f b).key = s.key := rfl
@[simp] theorem State.writeFlagAndResult_pix (s : State) (x : Reg) (f : Bool) (b : Byte) :
    (s.writeFlagAndResult x f b).pix = s.pix := rfl
@[simp] theorem State.writeFlagAndResult_mode (s : State) (x : Reg) (f : Bool) (b : Byte) :
    (s.writeFlagAndResult x f b).mode = s.mode := rfl
@[simp] theorem State.writeFlagAndResult_loaded (s : State) (x : Reg) (f : Bool) (b : Byte) :
    (s.writeFlagAndResult x f b).loaded = s.loaded := rfl
@[simp] theorem State.writeFlagAndResult_fault (s : State) (x : Reg) (f : Bool) (b : Byte) :
    (s.writeFlagAndResult x f b).fault = s.fault := rfl
@[simp] theorem State.writeFlagAndResult_config (s : State) (x : Reg) (f : Bool) (b : Byte) :
    (s.writeFlagAndResult x f b).config = s.config := rfl
@[simp] theorem State.writeFlagAndResult_draws (s : State) (x : Reg) (f : Bool) (b : Byte) :
    (s.writeFlagAndResult x f b).draws = s.draws := rfl
@[simp] theorem State.writeFlagAndResult_events (s : State) (x : Reg) (f : Bool) (b : Byte) :
    (s.writeFlagAndResult x f b).events = s.events := rfl

/-! ## Drawing -/

@[simp] theorem State.drawn_mem (s : State) (x y : Reg) (n : Count) :
    (s.drawn x y n).mem = s.mem := rfl
@[simp] theorem State.drawn_i (s : State) (x y : Reg) (n : Count) :
    (s.drawn x y n).i = s.i := rfl
@[simp] theorem State.drawn_dt (s : State) (x y : Reg) (n : Count) :
    (s.drawn x y n).dt = s.dt := rfl
@[simp] theorem State.drawn_st (s : State) (x y : Reg) (n : Count) :
    (s.drawn x y n).st = s.st := rfl
@[simp] theorem State.drawn_pc (s : State) (x y : Reg) (n : Count) :
    (s.drawn x y n).pc = s.pc := rfl
@[simp] theorem State.drawn_sp (s : State) (x y : Reg) (n : Count) :
    (s.drawn x y n).sp = s.sp := rfl
@[simp] theorem State.drawn_stack (s : State) (x y : Reg) (n : Count) :
    (s.drawn x y n).stack = s.stack := rfl
@[simp] theorem State.drawn_key (s : State) (x y : Reg) (n : Count) :
    (s.drawn x y n).key = s.key := rfl
@[simp] theorem State.drawn_mode (s : State) (x y : Reg) (n : Count) :
    (s.drawn x y n).mode = s.mode := rfl
@[simp] theorem State.drawn_loaded (s : State) (x y : Reg) (n : Count) :
    (s.drawn x y n).loaded = s.loaded := rfl
@[simp] theorem State.drawn_fault (s : State) (x y : Reg) (n : Count) :
    (s.drawn x y n).fault = s.fault := rfl
@[simp] theorem State.drawn_config (s : State) (x y : Reg) (n : Count) :
    (s.drawn x y n).config = s.config := rfl
@[simp] theorem State.drawn_draws (s : State) (x y : Reg) (n : Count) :
    (s.drawn x y n).draws = s.draws := rfl
@[simp] theorem State.drawn_events (s : State) (x y : Reg) (n : Count) :
    (s.drawn x y n).events = s.events := rfl

/-! ## Timers -/

@[simp] theorem timerTick_mem (s : State) :
    (timerTick s).mem = s.mem := rfl
@[simp] theorem timerTick_v (s : State) :
    (timerTick s).v = s.v := rfl
@[simp] theorem timerTick_i (s : State) :
    (timerTick s).i = s.i := rfl
@[simp] theorem timerTick_pc (s : State) :
    (timerTick s).pc = s.pc := rfl
@[simp] theorem timerTick_sp (s : State) :
    (timerTick s).sp = s.sp := rfl
@[simp] theorem timerTick_stack (s : State) :
    (timerTick s).stack = s.stack := rfl
@[simp] theorem timerTick_key (s : State) :
    (timerTick s).key = s.key := rfl
@[simp] theorem timerTick_pix (s : State) :
    (timerTick s).pix = s.pix := rfl
@[simp] theorem timerTick_mode (s : State) :
    (timerTick s).mode = s.mode := rfl
@[simp] theorem timerTick_loaded (s : State) :
    (timerTick s).loaded = s.loaded := rfl
@[simp] theorem timerTick_fault (s : State) :
    (timerTick s).fault = s.fault := rfl
@[simp] theorem timerTick_config (s : State) :
    (timerTick s).config = s.config := rfl
@[simp] theorem timerTick_draws (s : State) :
    (timerTick s).draws = s.draws := rfl
@[simp] theorem timerTick_events (s : State) :
    (timerTick s).events = s.events := rfl

/-! ## Completing a wait -/

@[simp] theorem completeWait_mem (s : State) (r : Reg) (k : Key) :
    (completeWait s r k).mem = s.mem := rfl
@[simp] theorem completeWait_i (s : State) (r : Reg) (k : Key) :
    (completeWait s r k).i = s.i := rfl
@[simp] theorem completeWait_dt (s : State) (r : Reg) (k : Key) :
    (completeWait s r k).dt = s.dt := rfl
@[simp] theorem completeWait_st (s : State) (r : Reg) (k : Key) :
    (completeWait s r k).st = s.st := rfl
@[simp] theorem completeWait_pc (s : State) (r : Reg) (k : Key) :
    (completeWait s r k).pc = s.pc := rfl
@[simp] theorem completeWait_sp (s : State) (r : Reg) (k : Key) :
    (completeWait s r k).sp = s.sp := rfl
@[simp] theorem completeWait_stack (s : State) (r : Reg) (k : Key) :
    (completeWait s r k).stack = s.stack := rfl
@[simp] theorem completeWait_key (s : State) (r : Reg) (k : Key) :
    (completeWait s r k).key = s.key := rfl
@[simp] theorem completeWait_pix (s : State) (r : Reg) (k : Key) :
    (completeWait s r k).pix = s.pix := rfl
@[simp] theorem completeWait_loaded (s : State) (r : Reg) (k : Key) :
    (completeWait s r k).loaded = s.loaded := rfl
@[simp] theorem completeWait_fault (s : State) (r : Reg) (k : Key) :
    (completeWait s r k).fault = s.fault := rfl
@[simp] theorem completeWait_config (s : State) (r : Reg) (k : Key) :
    (completeWait s r k).config = s.config := rfl
@[simp] theorem completeWait_draws (s : State) (r : Reg) (k : Key) :
    (completeWait s r k).draws = s.draws := rfl
@[simp] theorem completeWait_events (s : State) (r : Reg) (k : Key) :
    (completeWait s r k).events = s.events := rfl

end Sys2Proof.Machine
end

