-- ==== Sys2Proof/Laws/Memory.lean ====
section
/-! SUPPORT. Memory: what a read gives after a write, and that every write keeps the canonical form. -/

namespace Sys2Proof.Machine

/-! ## The list of cells -/

theorem Memory.lookup_insert (m : List Host.Cell) (a : Nat) (b : Byte) (a' : Nat) :
    Memory.lookup (Memory.insert m a b) a' = if a' = a then some b else Memory.lookup m a' := by
  induction m with
  | nil => simp [Memory.insert, Memory.lookup]
  | cons p m ih =>
    obtain ⟨k, x⟩ := p
    by_cases hlt : a < k
    · simp [Memory.insert, hlt, Memory.lookup]
    · by_cases heq : a = k
      · subst heq
        by_cases h : a' = a <;> simp [Memory.insert, Memory.lookup, h]
      · by_cases h : a' = k
        · subst h
          have hne : a' ≠ a := fun h => heq h.symm
          simp [Memory.insert, hlt, heq, Memory.lookup, hne]
        · simp [Memory.insert, hlt, heq, Memory.lookup, h, ih]

theorem Memory.lookup_remove (m : List Host.Cell) (a a' : Nat) :
    Memory.lookup (Memory.remove m a) a' = if a' = a then none else Memory.lookup m a' := by
  induction m with
  | nil => simp [Memory.remove, Memory.lookup]
  | cons p m ih =>
    obtain ⟨k, x⟩ := p
    by_cases hk : k = a
    · subst hk
      have hr : Memory.remove ((k, x) :: m) k = Memory.remove m k := by simp [Memory.remove]
      rw [hr, ih]
      by_cases h : a' = k <;> simp [Memory.lookup, h]
    · have hr : Memory.remove ((k, x) :: m) a = (k, x) :: Memory.remove m a := by simp [Memory.remove, hk]
      rw [hr]
      by_cases h : a' = k
      · subst h; simp [Memory.lookup, hk]
      · simp [Memory.lookup, h, ih]

/-- A read after a write: the byte written at its address, the old byte anywhere else (R79). -/
theorem Memory.read_write (c : Config) (m : List Host.Cell) (a : Nat) (b : Byte) (a' : Nat) :
    Memory.read c (Memory.write c m a b) a' = if a' = a then b else Memory.read c m a' := by
  unfold Memory.read Memory.write
  split
  · rename_i h
    rw [Memory.lookup_remove]
    split
    · rename_i ha; subst ha; simp [h]
    · rfl
  · rw [Memory.lookup_insert]
    split <;> simp

/-! ## The canonical form -/

theorem Memory.mem_insert {m : List Host.Cell} {a : Nat} {b : Byte} {p : Host.Cell}
    (h : p ∈ Memory.insert m a b) : p = (a, b) ∨ p ∈ m := by
  induction m with
  | nil => simpa [Memory.insert] using h
  | cons q m ih =>
    obtain ⟨k, x⟩ := q
    simp only [Memory.insert] at h
    split at h
    · simpa using h
    · split at h
      · rcases List.mem_cons.mp h with h | h
        · exact .inl h
        · exact .inr (List.mem_cons_of_mem _ h)
      · rcases List.mem_cons.mp h with h | h
        · exact .inr (by simp [h])
        · exact (ih h).imp id (List.mem_cons_of_mem _)

theorem Memory.pairwise_insert {m : List Host.Cell} (a : Nat) (b : Byte)
    (h : m.Pairwise fun p q => p.1 < q.1) : (Memory.insert m a b).Pairwise fun p q => p.1 < q.1 := by
  induction m with
  | nil => simp [Memory.insert]
  | cons q m ih =>
    obtain ⟨k, x⟩ := q
    obtain ⟨hk, hm⟩ := List.pairwise_cons.mp h
    simp only [Memory.insert]
    split
    · rename_i hlt
      refine List.pairwise_cons.mpr ⟨fun p hp => ?_, h⟩
      rcases List.mem_cons.mp hp with rfl | hp
      · exact hlt
      · exact Nat.lt_trans hlt (hk p hp)
    · split
      · rename_i heq
        subst heq
        exact List.pairwise_cons.mpr ⟨fun p hp => hk p hp, hm⟩
      · refine List.pairwise_cons.mpr ⟨fun p hp => ?_, ih hm⟩
        rcases Memory.mem_insert hp with rfl | hp
        · show k < a
          omega
        · exact hk p hp

/-- A write inside memory keeps the canonical form. -/
theorem Memory.wf_write {c : Config} {m : List Host.Cell} {a : Nat} (b : Byte) (h : Memory.wf c m)
    (ha : a < 4096) : Memory.wf c (Memory.write c m a b) := by
  obtain ⟨hs, he⟩ := h
  unfold Memory.write
  split
  · exact ⟨hs.filter _, fun p hp => he p (List.mem_filter.mp hp).1⟩
  · rename_i hb
    refine ⟨Memory.pairwise_insert a b hs, fun p hp => ?_⟩
    rcases Memory.mem_insert hp with rfl | hp
    · exact ⟨ha, hb⟩
    · exact he p hp

/-- Reset memory lists nothing, and that is canonical for any parameters. -/
theorem Memory.wf_nil (c : Config) : Memory.wf c [] := by simp [Memory.wf]

theorem State.reset_memory_wf : Memory.wf State.reset.config State.reset.mem := Memory.wf_nil _

/-! ## Through the state -/

/-- The read of one byte after the write of one byte. -/
theorem State.byteAt_setByte (s : State) (a : Nat) (b : Byte) (a' : Nat) :
    (s.setByte a b).byteAt a' = if a' = a then b else s.byteAt a' := Memory.read_write _ _ _ _ _

/-- A byte read depends on memory and on the parameters alone. -/
theorem State.byteAt_congr {s t : State} (hc : t.config = s.config) (hm : t.mem = s.mem) (a : Nat) :
    t.byteAt a = s.byteAt a := by simp [State.byteAt, hc, hm]

/-- Everything a store of several bytes does to memory: the stored bytes at their addresses, the rest as before. -/
theorem State.byteAt_storeBytes (s : State) (base : Nat) (bs : List Byte) (a : Nat) :
    (s.storeBytes base bs).byteAt a =
      if base ≤ a ∧ a < base + bs.length then bs.getD (a - base) 0 else s.byteAt a := by
  induction bs generalizing s base with
  | nil =>
    have : ¬ (base ≤ a ∧ a < base + ([] : List Byte).length) := by simp
    rw [if_neg this]; rfl
  | cons b bs ih =>
    rw [State.storeBytes, ih, State.byteAt_setByte]
    by_cases h1 : a = base
    · subst h1
      simp
    · by_cases h2 : base + 1 ≤ a ∧ a < base + 1 + bs.length
      · have h3 : base ≤ a ∧ a < base + (b :: bs).length := by simp only [List.length_cons]; omega
        have h4 : a - base = (a - (base + 1)) + 1 := by omega
        rw [if_pos h2, if_pos h3, h4, List.getD_cons_succ]
      · have h3 : ¬ (base ≤ a ∧ a < base + (b :: bs).length) := by simp only [List.length_cons]; omega
        rw [if_neg h2, if_neg h3, if_neg h1]

/-- A store inside memory keeps the canonical form. -/
theorem State.wf_storeBytes {s : State} {base : Nat} {bs : List Byte} (h : Memory.wf s.config s.mem)
    (hr : bs = [] ∨ base + bs.length ≤ 4096) :
    Memory.wf (s.storeBytes base bs).config (s.storeBytes base bs).mem := by
  induction bs generalizing s base with
  | nil => exact h
  | cons b bs ih =>
    have hlen : base + (bs.length + 1) ≤ 4096 := by simpa using hr
    exact ih (s := s.setByte base b) (base := base + 1) (Memory.wf_write b h (by omega)) (.inr (by omega))

end Sys2Proof.Machine
end

