-- ==== Sys2Proof/Laws/Ops.lean ====
section
/-! SUPPORT. What each shared operation does: registers, the stack, keys, pixels, checks, and taking a fault. -/

namespace Sys2Proof.Machine

/-! ## Reads after writes -/

/-- The register file: the written register reads the byte, every other one reads as before (R21). -/
theorem State.readV_writeV (s : State) (r : Reg) (b : Byte) (r' : Reg) :
    (s.writeV r b).readV r' = if r' = r then b else s.readV r' := by
  simp only [State.readV, State.writeV, Vector.getElem_set, Fin.val_inj, eq_comm (a := r)]

@[simp] theorem State.readV_writeV_self (s : State) (r : Reg) (b : Byte) : (s.writeV r b).readV r = b := by
  simp [State.readV_writeV]

/-- A register read depends on the register file alone. -/
theorem State.readV_congr {s t : State} (h : t.v = s.v) (r : Reg) : t.readV r = s.readV r := by
  simp [State.readV, h]

/-- Flag and result (R170): the destination reads the result, VF the flag unless it is the destination. -/
theorem State.readV_writeFlagAndResult (s : State) (x : Reg) (f : Bool) (b : Byte) (r : Reg) :
    (s.writeFlagAndResult x f b).readV r =
      if r = x then b else if r = vf then flagByte f else s.readV r := by
  simp [State.writeFlagAndResult, State.readV_writeV]

/-- A flag byte is 1 exactly when the flag is set (R24). -/
@[simp] theorem flagByte_eq_one (b : Bool) : flagByte b = 1 ↔ b = true := by cases b <;> decide

theorem flagByte_values (b : Bool) : flagByte b = 1 ∨ flagByte b = 0 := by cases b <;> decide

theorem flagByte_toNat (b : Bool) : (flagByte b).toNat = if b then 1 else 0 := by cases b <;> rfl

/-- The keyboard: the written flag reads the value, every other one reads as before. -/
theorem State.keyAt_setKey (s : State) (k : Key) (b : Bool) (k' : Key) :
    (s.setKey k b).keyAt k' = if k' = k then b else s.keyAt k' := by
  simp only [State.keyAt, State.setKey, Vector.getElem_set, Fin.val_inj, eq_comm (a := k)]

/-- The screen: the written pixel reads the value, every other one reads as before. -/
theorem Screen.get_put (p : Vector (Vector Bool 32) 64) (px : Fin 64) (py : Fin 32) (b : Bool) (qx : Fin 64)
    (qy : Fin 32) :
    Screen.get (Screen.put p px py b) qx qy = if qx = px ∧ qy = py then b else Screen.get p qx qy := by
  by_cases hx : qx = px
  · subst hx
    simp only [Screen.get, Screen.put, Vector.getElem_set_self, Vector.getElem_set, Fin.val_inj, true_and,
      eq_comm (a := py)]
  · have : px.val ≠ qx.val := fun h => hx (Fin.ext h.symm)
    simp [Screen.get, Screen.put, this, hx]

@[simp] theorem Screen.get_clear (px : Fin 64) (py : Fin 32) : Screen.get Screen.clear px py = false := by
  simp [Screen.get, Screen.clear]

/-! ## Checks -/

/-- `checkRange` passes exactly when every address it covers lies in memory (R63). -/
theorem checkRange_ok {base m : Nat} (h : m = 0 ∨ base + m ≤ 4096) : checkRange base m = .ok () := by
  have : ¬ (0 < m ∧ memSize ≤ base + m - 1) := by simp only [memSize]; omega
  simp [checkRange, this]

theorem checkRange_error {base m : Nat} (hm : 0 < m) (h : 4096 ≤ base + m - 1) :
    checkRange base m = .error ⟨.outOfBounds, max base 4096⟩ := by
  have : 0 < m ∧ memSize ≤ base + m - 1 := ⟨hm, h⟩
  simp [checkRange, this]

theorem checkRange_cases (base m : Nat) :
    (m = 0 ∨ base + m ≤ 4096) ∧ checkRange base m = .ok () ∨
      (0 < m ∧ 4096 ≤ base + m - 1) ∧ checkRange base m = .error ⟨.outOfBounds, max base 4096⟩ := by
  by_cases h : m = 0 ∨ base + m ≤ 4096
  · exact .inl ⟨h, checkRange_ok h⟩
  · exact .inr ⟨by omega, checkRange_error (by omega) (by omega)⟩

theorem keyIndex_ok {b : Byte} (h : b.toNat < 16) : keyIndex b = .ok ⟨b.toNat, h⟩ := by simp [keyIndex, h]

theorem keyIndex_error {b : Byte} (h : 16 ≤ b.toNat) : keyIndex b = .error ⟨.outOfBounds, b.toNat⟩ := by
  have : ¬ b.toNat < 16 := by omega
  simp [keyIndex, this]

/-- Everything `push` does (R142). -/
theorem push_cases (s : State) (w : Word) :
    (∃ h : s.sp.val < 16, push s w =
        .ok { s with stack := s.stack.set s.sp.val w, sp := ⟨s.sp.val + 1, Nat.succ_lt_succ h⟩ }) ∨
      s.sp.val = 16 ∧ push s w = .error ⟨.stackOverflow, 16⟩ := by
  by_cases h : s.sp.val < 16
  · exact .inl ⟨h, by simp [push, h]⟩
  · have h16 : s.sp.val = 16 := by omega
    exact .inr ⟨h16, by simp [push, h16]⟩

/-- Everything `pop` does (R142). -/
theorem pop_cases (s : State) :
    (∃ h : 0 < s.sp.val, pop s =
        .ok (s.stack[s.sp.val - 1]'(by omega), { s with sp := ⟨s.sp.val - 1, by omega⟩ })) ∨
      s.sp.val = 0 ∧ pop s = .error ⟨.stackUnderflow, 0⟩ := by
  by_cases h : 0 < s.sp.val
  · exact .inl ⟨h, by simp [pop, h]⟩
  · have h0 : s.sp.val = 0 := by omega
    exact .inr ⟨h0, by simp [pop, h0]⟩

/-- A push that has room, by slot (R142). -/
theorem push_ok {s : State} {j : Fin 16} (w : Word) (h : s.sp.val = j.val) :
    push s w = .ok { s with stack := s.stack.set j.val w, sp := j.succ } := by
  obtain ⟨j, hj⟩ := j
  rcases push_cases s w with ⟨hp, hpush⟩ | ⟨h16, -⟩
  · rw [hpush]; simp only at h; simp only [h]; rfl
  · simp only at h; omega

/-- A pop that finds a value, by slot (R142). -/
theorem pop_ok {s : State} {j : Fin 16} (h : s.sp.val = j.val + 1) :
    pop s = .ok (s.slot j, { s with sp := j.castSucc }) := by
  obtain ⟨j, hj⟩ := j
  rcases pop_cases s with ⟨hp, hpop⟩ | ⟨h0, -⟩
  · have hidx : s.sp.val - 1 = j := by simp only at h; omega
    rw [hpop]; simp only [State.slot, hidx]; rfl
  · simp only at h; omega

/-- The stack after a write of one slot (R33). -/
theorem stack_set (st : Vector Word 16) (j : Fin 16) (w : Word) (k : Fin 16) :
    (st.set j.val w)[k.val] = if k = j then w else st[k.val] := by
  simp only [Vector.getElem_set, Fin.val_inj, eq_comm (a := j)]

@[simp] theorem checked_ok {α : Type} (i : Instr) (s : State) (a : α) (f : α → State) :
    checked i s (.ok a) f = .next (f a) := rfl

@[simp] theorem checked_error {α : Type} (i : Instr) (s : State) (t : Trap) (f : α → State) :
    checked i s (.error t) f = .next (raise i t s) := rfl

/-! ## Frames -/

/-- A fault leaves everything but `Mode` and `Fault` as it was (R244). -/
theorem takeFault_frame (s : State) (t : Trap) (a : Word) (w : Option Word) :
    Frame s (takeFault s t a w) (fun p => p = .mode ∨ p = .fault) := by
  intro p hp
  cases p <;> first | rfl | simp at hp

/-- The frame of a fault raised by the instruction now executing. -/
theorem raise_frame (i : Instr) (t : Trap) (s : State) :
    Frame s (raise i t s) (fun p => p = .mode ∨ p = .fault) := takeFault_frame _ _ _ _

/-- The frame of a register write. -/
theorem writeV_frame (s : State) (r : Reg) (b : Byte) : Frame s (s.writeV r b) (fun p => p = .reg r) := by
  intro p hp
  cases p with
  | reg r' =>
    have : r' ≠ r := fun h => hp (by rw [h])
    simp [Part.Same, State.readV_writeV, this]
  | _ => rfl

/-- The frame of a store of several bytes. -/
theorem storeBytes_frame (s : State) (base : Nat) (bs : List Byte) :
    Frame s (s.storeBytes base bs) (fun p => ∃ j, j < bs.length ∧ p = .byte (base + j)) := by
  intro p hp
  cases p with
  | byte a =>
    have : ¬ (base ≤ a ∧ a < base + bs.length) := fun h =>
      hp ⟨a - base, by omega, by congr 1; omega⟩
    simp [Part.Same, State.byteAt_storeBytes, this]
  | _ => simp [Part.Same, State.readV, State.slot, State.keyAt, State.pixel]

/-- The frame of a jump. -/
theorem setPc_frame (s : State) (w : Word) : Frame s { s with pc := w } (fun p => p = .pc) := by
  intro p hp
  cases p <;> first | rfl | simp at hp

/-- A skip moves `PC` two on exactly when its condition holds, and changes nothing else (R146). -/
theorem skipIf_pc (s : State) (b : Bool) :
    (s.skipIf b).pc.toNat = if b then (s.pc.toNat + 2) % 65536 else s.pc.toNat := by
  cases b <;> simp [State.skipIf, BitVec.toNat_add]

theorem skipIf_frame (s : State) (b : Bool) : Frame s (s.skipIf b) (fun p => p = .pc) := by
  cases b
  · intro p _; cases p <;> rfl
  · exact setPc_frame _ _

/-- Frames compose. -/
theorem Frame.trans {s t u : State} {f g : Part → Prop} (h : Frame s t f) (k : Frame t u g) :
    Frame s u (fun p => f p ∨ g p) := by
  intro p hp
  have h1 := h p fun hf => hp (.inl hf)
  have h2 := k p fun hg => hp (.inr hg)
  cases p <;> exact Eq.trans h2 h1

/-- A frame may be widened. -/
theorem Frame.mono {s t : State} {f g : Part → Prop} (h : Frame s t f) (hfg : ∀ p, f p → g p) : Frame s t g :=
  fun p hp => h p fun hf => hp (hfg p hf)

/-- The frame of a flag and a result (R170). -/
theorem writeFlagAndResult_frame (s : State) (x : Reg) (f : Bool) (b : Byte) :
    Frame s (s.writeFlagAndResult x f b) (fun p => p = .reg x ∨ p = .reg 15) :=
  Frame.mono (Frame.trans (writeV_frame s vf (flagByte f)) (writeV_frame _ x b)) fun _ => Or.symm

end Sys2Proof.Machine
end

