-- ==== Sys2Proof/Laws/Display.lean ====
section
/-! SUPPORT. The compositor: what drawing a sprite does to the screen, said once (40_display.md R122 to R124). -/

namespace Sys2Proof.Machine

/-- The set bits of one sprite row, as (row, column) pairs in drawing order. -/
def rowBits (r : Nat) (row : Byte) : List (Nat × Nat) :=
  ([0, 1, 2, 3, 4, 5, 6, 7].filter fun c => row.getLsbD (7 - c)).map fun c => (r, c)

/-- The set bits of a sprite, row after row. -/
def spriteBits (r : Nat) : List Byte → List (Nat × Nat)
  | [] => []
  | row :: rows => rowBits r row ++ spriteBits (r + 1) rows

/-- What one set bit does: it toggles its pixel, and collides when the pixel was set. -/
def toggleBit (x0 y0 : Nat) (acc : Vector (Vector Bool 32) 64 × Bool) (q : Nat × Nat) :
    Vector (Vector Bool 32) 64 × Bool :=
  (Screen.put acc.1 (wrapX x0 q.2) (wrapY y0 q.1) (!Screen.get acc.1 (wrapX x0 q.2) (wrapY y0 q.1)),
    acc.2 || Screen.get acc.1 (wrapX x0 q.2) (wrapY y0 q.1))

/-- One row is its set bits, toggled in order. -/
theorem drawRow_eq (x0 y0 r : Nat) (row : Byte) (acc) :
    drawRow x0 y0 r row acc = (rowBits r row).foldl (toggleBit x0 y0) acc := by
  unfold drawRow rowBits
  generalize [0, 1, 2, 3, 4, 5, 6, 7] = l
  induction l generalizing acc with
  | nil => rfl
  | cons c l ih =>
    rw [List.foldl_cons, ih]
    by_cases h : row.getLsbD (7 - c) = true
    · simp [h, drawBit, toggleBit]
    · simp at h; simp [h, drawBit]

/-- A sprite is its set bits, toggled in order. -/
theorem drawRows_eq (x0 y0 r : Nat) (rows : List Byte) (acc) :
    drawRows x0 y0 r rows acc = (spriteBits r rows).foldl (toggleBit x0 y0) acc := by
  induction rows generalizing r acc with
  | nil => rfl
  | cons row rows ih => rw [drawRows, ih, spriteBits, List.foldl_append, drawRow_eq]

theorem mem_spriteBits {r : Nat} {rows : List Byte} {q : Nat × Nat} : q ∈ spriteBits r rows ↔
    ∃ k, k < rows.length ∧ q.1 = r + k ∧ q.2 < 8 ∧ (rows.getD k 0).getLsbD (7 - q.2) = true := by
  induction rows generalizing r with
  | nil => simp [spriteBits]
  | cons row rows ih =>
    rw [spriteBits, List.mem_append, ih, rowBits]
    constructor
    · rintro (h | ⟨k, h1, h2, h3, h4⟩)
      · obtain ⟨c, hc, rfl⟩ := List.mem_map.mp h
        obtain ⟨hc1, hc2⟩ := List.mem_filter.mp hc
        refine ⟨0, by simp, rfl, ?_, by simpa using hc2⟩
        simp at hc1; show c < 8; omega
      · exact ⟨k + 1, by simpa using h1, by omega, h3, by simpa using h4⟩
    · rintro ⟨k, h1, h2, h3, h4⟩
      cases k with
      | zero =>
        left
        obtain ⟨a, c⟩ := q
        simp at h2 h3 h4
        subst h2
        refine List.mem_map.mpr ⟨c, List.mem_filter.mpr ⟨?_, by simpa using h4⟩, rfl⟩
        simp; omega
      | succ k => right; exact ⟨k, by simpa using h1, by omega, h3, by simpa using h4⟩

theorem nodup_spriteBits (r : Nat) (rows : List Byte) : (spriteBits r rows).Nodup := by
  induction rows generalizing r with
  | nil => simp [spriteBits]
  | cons row rows ih =>
    rw [spriteBits, List.nodup_append, rowBits]
    refine ⟨?_, ih _, ?_⟩
    · apply List.Nodup.map
      · intro a b h; simpa using h
      · exact List.Nodup.filter _ (by decide)
    · intro a ha b hb hab
      subst hab
      obtain ⟨c, _, rfl⟩ := List.mem_map.mp ha
      obtain ⟨k, _, h, _⟩ := mem_spriteBits.mp hb
      dsimp only at h; omega

/-- The pixel a sprite bit reaches (R124). -/
def target (x0 y0 : Nat) (q : Nat × Nat) : Fin 64 × Fin 32 := (wrapX x0 q.2, wrapY y0 q.1)

/-- Toggling pixels that are all different: each is toggled once, and the collision looks at the screen before. -/
theorem foldl_toggleBit (x0 y0 : Nat) (l : List (Nat × Nat)) (hl : (l.map (target x0 y0)).Nodup) (acc) :
    (∀ px py, Screen.get (l.foldl (toggleBit x0 y0) acc).1 px py =
      (Screen.get acc.1 px py ^^ decide ((px, py) ∈ l.map (target x0 y0)))) ∧
    ((l.foldl (toggleBit x0 y0) acc).2 = true ↔ acc.2 = true ∨
      ∃ px py, (px, py) ∈ l.map (target x0 y0) ∧ Screen.get acc.1 px py = true) := by
  induction l generalizing acc with
  | nil => simp
  | cons q l ih =>
    rw [List.map_cons, List.nodup_cons] at hl
    obtain ⟨hq, hl⟩ := hl
    obtain ⟨h1, h2⟩ := ih hl (toggleBit x0 y0 acc q)
    rw [List.foldl_cons]
    have hget : ∀ px py, Screen.get (toggleBit x0 y0 acc q).1 px py =
        if (px, py) = target x0 y0 q then !Screen.get acc.1 px py else Screen.get acc.1 px py := by
      intro px py
      simp only [toggleBit, Screen.get_put, target, Prod.mk.injEq]
      split
      · rename_i h; rw [h.1, h.2]
      · rfl
    constructor
    · intro px py
      rw [h1, hget]
      by_cases h : (px, py) = target x0 y0 q
      · have : (px, py) ∉ l.map (target x0 y0) := by rw [h]; exact hq
        rw [if_pos h, List.map_cons]
        have hq' := this; rw [h] at hq'
        simp [h, hq']
      · rw [if_neg h, List.map_cons]
        simp only [List.mem_cons, h, false_or]
    · rw [h2]
      constructor
      · rintro (h | ⟨px, py, hm, hg⟩)
        · simp only [toggleBit, Bool.or_eq_true] at h
          rcases h with h | h
          · exact .inl h
          · exact .inr ⟨_, _, by rw [List.map_cons]; exact List.mem_cons_self, h⟩
        · right
          refine ⟨px, py, by simp only [List.map_cons, List.mem_cons, hm, or_true], ?_⟩
          rw [hget, if_neg] at hg
          · exact hg
          · intro h; rw [h] at hm; exact hq hm
      · rintro (h | ⟨px, py, hm, hg⟩)
        · left; simp [toggleBit, h]
        · rw [List.map_cons, List.mem_cons] at hm
          rcases hm with hm | hm
          · left
            simp only [toggleBit, Bool.or_eq_true]
            right
            simp only [target, Prod.mk.injEq] at hm
            rw [← hm.1, ← hm.2]; exact hg
          · right
            refine ⟨px, py, hm, ?_⟩
            rw [hget, if_neg, hg]
            intro h; rw [h] at hm; exact hq hm

/-- No two set bits of one sprite reach the same pixel (R122). -/
theorem spriteBits_targets_nodup (x0 y0 : Nat) {rows : List Byte} (h : rows.length ≤ 15) :
    ((spriteBits 0 rows).map (target x0 y0)).Nodup := by
  refine List.Nodup.map_on ?_ (nodup_spriteBits _ _)
  intro a ha b hb hab
  obtain ⟨k, hk, ha1, ha2, _⟩ := mem_spriteBits.mp ha
  obtain ⟨k', hk', hb1, hb2, _⟩ := mem_spriteBits.mp hb
  simp only [target, wrapX, wrapY, Prod.mk.injEq, Fin.mk.injEq, screenWidth, screenHeight] at hab
  apply Prod.ext <;> omega

theorem spriteCovers_iff (x0 y0 : Nat) (rows : List Byte) (px py) :
    spriteCovers x0 y0 rows px py ↔ (px, py) ∈ (spriteBits 0 rows).map (target x0 y0) := by
  constructor
  · rintro ⟨r, c, h1, h2, h3, h4, h5⟩
    refine List.mem_map.mpr ⟨(r, c), mem_spriteBits.mpr ⟨r, h1, by simp, h2, h3⟩, ?_⟩
    simp only [target, wrapX, wrapY, Prod.mk.injEq]
    exact ⟨Fin.ext h4.symm, Fin.ext h5.symm⟩
  · intro h
    obtain ⟨⟨r, c⟩, h1, h2⟩ := List.mem_map.mp h
    obtain ⟨k, hk, hr, hc, hb⟩ := mem_spriteBits.mp h1
    simp only [target, Prod.mk.injEq] at h2
    simp at hr; subst hr
    exact ⟨_, c, hk, hc, hb, by rw [← h2.1]; rfl, by rw [← h2.2]; rfl⟩

/-- Everything `draw_sprite` does (R122 to R124): a pixel the sprite covers is toggled, every other one stays, and a
collision is recorded exactly when a covered pixel was set before. -/
theorem drawSprite_spec (x0 y0 : Nat) {rows : List Byte} (pix : Vector (Vector Bool 32) 64) (h : rows.length ≤ 15) :
    (∀ px py, (spriteCovers x0 y0 rows px py →
        Screen.get (drawSprite x0 y0 rows pix).1 px py = !Screen.get pix px py) ∧
      (¬ spriteCovers x0 y0 rows px py → Screen.get (drawSprite x0 y0 rows pix).1 px py = Screen.get pix px py)) ∧
    ((drawSprite x0 y0 rows pix).2 = true ↔
      ∃ px py, spriteCovers x0 y0 rows px py ∧ Screen.get pix px py = true) := by
  have hf := foldl_toggleBit x0 y0 (spriteBits 0 rows) (spriteBits_targets_nodup x0 y0 h) (pix, false)
  rw [drawSprite, drawRows_eq]
  simp only [spriteCovers_iff]
  refine ⟨fun px py => ⟨fun hc => ?_, fun hc => ?_⟩, by simpa using hf.2⟩
  · rw [hf.1]; simp [hc]
  · rw [hf.1]; simp [hc]

/-- Two screens that read the same are equal. -/
theorem screen_ext {p q : Vector (Vector Bool 32) 64} (h : ∀ px py, Screen.get p px py = Screen.get q px py) :
    p = q := by
  ext i hi j hj
  exact h ⟨i, hi⟩ ⟨j, hj⟩

/-- A pixel that no drawn sprite covers is as it was (R122, R123). -/
theorem get_drawSprites_of_not_covered {sprites : List Sprite} (pix : Vector (Vector Bool 32) 64) {px : Fin 64}
    {py : Fin 32} (hlen : ∀ d ∈ sprites, d.rows.length ≤ 15)
    (h : ∀ d ∈ sprites, ¬ spriteCovers d.x0 d.y0 d.rows px py) :
    Screen.get (drawSprites sprites pix) px py = Screen.get pix px py := by
  induction sprites generalizing pix with
  | nil => rfl
  | cons d ds ih =>
    obtain ⟨hd, hds⟩ := List.forall_mem_cons.mp hlen
    obtain ⟨cd, cds⟩ := List.forall_mem_cons.mp h
    exact (ih _ hds cds).trans (((drawSprite_spec d.x0 d.y0 pix hd).1 px py).2 cd)

end Sys2Proof.Machine
end

