-- ==== Sys2Proof/Laws/Encoding.lean ====
section
/-! SUPPORT. The fields of an encoded word, and the words of encoded bytes: what the decoder's fields read from what
the encoder's formats lay out. -/

namespace Sys2Proof

/-! ## Slices of a concatenation -/

theorem extract_append_high {n m : Nat} (a : BitVec n) (b : BitVec m) (s l : Nat) :
    (a ++ b).extractLsb' (m + s) l = a.extractLsb' s l := by
  ext k hk
  have h : ¬ m + s + k < m := by omega
  have h' : m + s + k - m = s + k := by omega
  simp [BitVec.getLsbD_append, h, h']

theorem extract_append_low {n m : Nat} (a : BitVec n) (b : BitVec m) {s l : Nat} (h : s + l ≤ m) :
    (a ++ b).extractLsb' s l = b.extractLsb' s l := by
  ext k hk
  have : s + k < m := by omega
  simp [BitVec.getLsbD_append, this]

theorem extract_all {n : Nat} (a : BitVec n) : a.extractLsb' 0 n = a := by simp

/-! ## Format `nnn` (R92) -/

@[simp] theorem fieldOp_wordNnn (op : BitVec 4) (nnn : Addr) : fieldOp (wordNnn op nnn) = op :=
  (extract_append_high op nnn 0 4).trans (extract_all op)

@[simp] theorem fieldNnn_wordNnn (op : BitVec 4) (nnn : Addr) : fieldNnn (wordNnn op nnn) = nnn :=
  (extract_append_low op nnn (by omega)).trans (extract_all nnn)

/-! ## Format `xkk` -/

@[simp] theorem fieldOp_wordXkk (op : BitVec 4) (x : Reg) (kk : Byte) : fieldOp (wordXkk op x kk) = op :=
  (extract_append_high (op ++ BitVec.ofFin (w := 4) x) kk 4 4).trans
    ((extract_append_high op (BitVec.ofFin (w := 4) x) 0 4).trans (extract_all op))

@[simp] theorem fieldX_wordXkk (op : BitVec 4) (x : Reg) (kk : Byte) : fieldX (wordXkk op x kk) = x :=
  congrArg BitVec.toFin ((extract_append_high (op ++ BitVec.ofFin (w := 4) x) kk 0 4).trans
    ((extract_append_low op (BitVec.ofFin (w := 4) x) (by omega)).trans (extract_all _)))

@[simp] theorem fieldKk_wordXkk (op : BitVec 4) (x : Reg) (kk : Byte) : fieldKk (wordXkk op x kk) = kk :=
  (extract_append_low (op ++ BitVec.ofFin (w := 4) x) kk (by omega)).trans (extract_all kk)

/-! ## Format `xyn` -/

@[simp] theorem fieldOp_wordXyn (op : BitVec 4) (x y : Reg) (n : Count) : fieldOp (wordXyn op x y n) = op :=
  (extract_append_high _ (BitVec.ofFin (w := 4) n) 8 4).trans
    ((extract_append_high _ (BitVec.ofFin (w := 4) y) 4 4).trans
      ((extract_append_high op (BitVec.ofFin (w := 4) x) 0 4).trans (extract_all op)))

@[simp] theorem fieldX_wordXyn (op : BitVec 4) (x y : Reg) (n : Count) : fieldX (wordXyn op x y n) = x :=
  congrArg BitVec.toFin ((extract_append_high _ (BitVec.ofFin (w := 4) n) 4 4).trans
    ((extract_append_high _ (BitVec.ofFin (w := 4) y) 0 4).trans
      ((extract_append_low op (BitVec.ofFin (w := 4) x) (by omega)).trans (extract_all _))))

@[simp] theorem fieldY_wordXyn (op : BitVec 4) (x y : Reg) (n : Count) : fieldY (wordXyn op x y n) = y :=
  congrArg BitVec.toFin ((extract_append_high _ (BitVec.ofFin (w := 4) n) 0 4).trans
    ((extract_append_low _ (BitVec.ofFin (w := 4) y) (by omega)).trans (extract_all _)))

@[simp] theorem fieldN_wordXyn (op : BitVec 4) (x y : Reg) (n : Count) : fieldN (wordXyn op x y n) = n :=
  congrArg BitVec.toFin ((extract_append_low _ (BitVec.ofFin (w := 4) n) (by omega)).trans (extract_all _))

/-! ## A word as its fields -/

/-- A word cut in two and joined again. -/
theorem split_at {n m : Nat} (w : BitVec (n + m)) : w.extractLsb' m n ++ w.extractLsb' 0 m = w := by
  rw [BitVec.extractLsb'_append_extractLsb'_eq_extractLsb' (by omega)]; simp

/-- A word is its fields laid out, in each format (R91, R92). -/
theorem word_eq_wordNnn (w : Word) : w = wordNnn (fieldOp w) (fieldNnn w) := (split_at (n := 4) (m := 12) w).symm

theorem extract_extract {n : Nat} (a : BitVec n) (s l s' l' : Nat) (h : s' + l' ≤ l) :
    (a.extractLsb' s l).extractLsb' s' l' = a.extractLsb' (s + s') l' := by
  ext k hk
  have : s' + k < l := by omega
  simp [this, Nat.add_assoc]

@[inherit_doc word_eq_wordNnn] theorem word_eq_wordXkk (w : Word) : w = wordXkk (fieldOp w) (fieldX w) (fieldKk w) := by
  have h := split_at (n := 4) (m := 4) (w.extractLsb' 8 8)
  rw [extract_extract _ _ _ _ _ (by omega), extract_extract _ _ _ _ _ (by omega)] at h
  have h2 := split_at (n := 8) (m := 8) w
  rw [← h] at h2
  exact h2.symm

@[inherit_doc word_eq_wordNnn] theorem word_eq_wordXyn (w : Word) :
    w = wordXyn (fieldOp w) (fieldX w) (fieldY w) (fieldN w) := by
  have h := split_at (n := 4) (m := 4) (w.extractLsb' 8 8)
  rw [extract_extract _ _ _ _ _ (by omega), extract_extract _ _ _ _ _ (by omega)] at h
  have h2 := split_at (n := 8) (m := 4) (w.extractLsb' 4 12)
  rw [extract_extract _ _ _ _ _ (by omega), extract_extract _ _ _ _ _ (by omega)] at h2
  have h3 := split_at (n := 12) (m := 4) w
  rw [← h] at h2
  rw [← h2] at h3
  exact h3.symm

/-! ## The fixed bits of each format -/

theorem wordNnn_masked (op : BitVec 4) (nnn : Addr) : wordNnn op nnn &&& 0xF000 = wordNnn op 0 := by
  show (op ++ nnn : BitVec (4 + 12)) &&& ((0xF : BitVec 4) ++ (0 : BitVec 12)) = op ++ (0 : BitVec 12)
  rw [BitVec.and_append]
  congr 1
  · exact BitVec.and_allOnes
  · simp

theorem wordXkk_masked (op : BitVec 4) (x : Reg) (kk : Byte) : wordXkk op x kk &&& 0xF000 = wordXkk op 0 0 := by
  show (op ++ BitVec.ofFin (w := 4) x ++ kk : BitVec (4 + 4 + 8)) &&&
    ((0xF : BitVec 4) ++ (0 : BitVec 4) ++ (0 : BitVec 8)) = op ++ (0 : BitVec 4) ++ (0 : BitVec 8)
  rw [BitVec.and_append, BitVec.and_append]
  congr 1
  · congr 1
    · exact BitVec.and_allOnes
    · simp
  · simp

theorem wordX_masked (op : BitVec 4) (x : Reg) (kk : Byte) : wordXkk op x kk &&& 0xF0FF = wordXkk op 0 kk := by
  show (op ++ BitVec.ofFin (w := 4) x ++ kk : BitVec (4 + 4 + 8)) &&&
    ((0xF : BitVec 4) ++ (0 : BitVec 4) ++ (0xFF : BitVec 8)) = op ++ (0 : BitVec 4) ++ kk
  rw [BitVec.and_append, BitVec.and_append]
  congr 1
  · congr 1
    · exact BitVec.and_allOnes
    · simp
  · exact BitVec.and_allOnes

theorem wordXyn_masked (op : BitVec 4) (x y : Reg) (n : Count) :
    wordXyn op x y n &&& 0xF00F = wordXyn op 0 0 n := by
  show (op ++ BitVec.ofFin (w := 4) x ++ BitVec.ofFin (w := 4) y ++ BitVec.ofFin (w := 4) n :
      BitVec (4 + 4 + 4 + 4)) &&& ((0xF : BitVec 4) ++ (0 : BitVec 4) ++ (0 : BitVec 4) ++ (0xF : BitVec 4)) =
    op ++ (0 : BitVec 4) ++ (0 : BitVec 4) ++ BitVec.ofFin (w := 4) n
  rw [BitVec.and_append, BitVec.and_append, BitVec.and_append]
  congr 1
  · congr 1
    · congr 1
      · exact BitVec.and_allOnes
      · simp
    · simp
  · exact BitVec.and_allOnes

theorem wordDrw_masked (op : BitVec 4) (x y : Reg) (n : Count) :
    wordXyn op x y n &&& 0xF000 = wordXyn op 0 0 0 := by
  show (op ++ BitVec.ofFin (w := 4) x ++ BitVec.ofFin (w := 4) y ++ BitVec.ofFin (w := 4) n :
      BitVec (4 + 4 + 4 + 4)) &&& ((0xF : BitVec 4) ++ (0 : BitVec 4) ++ (0 : BitVec 4) ++ (0 : BitVec 4)) =
    op ++ (0 : BitVec 4) ++ (0 : BitVec 4) ++ (0 : BitVec 4)
  rw [BitVec.and_append, BitVec.and_append, BitVec.and_append]
  congr 1
  · congr 1
    · congr 1
      · exact BitVec.and_allOnes
      · simp
    · simp
  · simp

/-- What a mask of the opcode map compares, as fields (R95). -/
theorem mask_op (w : Word) (op : BitVec 4) : w &&& 0xF000 = wordXyn op 0 0 0 ↔ fieldOp w = op := by
  have h : w &&& 0xF000 = wordXyn (fieldOp w) 0 0 0 := by
    conv_lhs => rw [word_eq_wordXyn w]
    exact wordDrw_masked _ _ _ _
  rw [h]
  exact ⟨fun h => by simpa using congrArg fieldOp h, fun h => by rw [h]⟩

@[inherit_doc mask_op] theorem mask_op_n (w : Word) (op : BitVec 4) (n : Count) :
    w &&& 0xF00F = wordXyn op 0 0 n ↔ fieldOp w = op ∧ fieldN w = n := by
  have h : w &&& 0xF00F = wordXyn (fieldOp w) 0 0 (fieldN w) := by
    conv_lhs => rw [word_eq_wordXyn w]
    exact wordXyn_masked _ _ _ _
  rw [h]
  exact ⟨fun h => ⟨by simpa using congrArg fieldOp h, by simpa using congrArg fieldN h⟩,
    fun h => by rw [h.1, h.2]⟩

@[inherit_doc mask_op] theorem mask_op_kk (w : Word) (op : BitVec 4) (kk : Byte) :
    w &&& 0xF0FF = wordXkk op 0 kk ↔ fieldOp w = op ∧ fieldKk w = kk := by
  have h : w &&& 0xF0FF = wordXkk (fieldOp w) 0 (fieldKk w) := by
    conv_lhs => rw [word_eq_wordXkk w]
    exact wordX_masked _ _ _
  rw [h]
  exact ⟨fun h => ⟨by simpa using congrArg fieldOp h, by simpa using congrArg fieldKk h⟩,
    fun h => by rw [h.1, h.2]⟩

/-! ## Bytes of a word -/

/-- The two bytes of a word in memory order give the word back (R64, R65). -/
@[simp] theorem wordOfBytes_bytes (w : Word) : wordOfBytes (highByte w) (lowByte w) = w := by
  apply BitVec.eq_of_toNat_eq
  have h := BitVec.toNat_append (highByte w) (lowByte w)
  have hw := w.isLt
  simp only [wordOfBytes]
  refine h.trans ?_
  simp only [highByte, lowByte, BitVec.extractLsb'_toNat, Nat.shiftRight_zero]
  have hlt : w.toNat % 2 ^ 8 < 2 ^ 8 := Nat.mod_lt _ (by decide)
  rw [← Nat.shiftLeft_add_eq_or_of_lt hlt, Nat.shiftLeft_eq, Nat.shiftRight_eq_div_pow]
  omega

/-- The high and low byte of a word made of two bytes. -/
@[simp] theorem highByte_wordOfBytes (hi lo : Byte) : highByte (wordOfBytes hi lo) = hi :=
  (extract_append_high hi lo 0 8).trans (extract_all hi)

@[simp] theorem lowByte_wordOfBytes (hi lo : Byte) : lowByte (wordOfBytes hi lo) = lo :=
  (extract_append_low hi lo (by omega)).trans (extract_all lo)

end Sys2Proof
end

