-- ==== Sys2Proof/Laws/Step.lean ====
section
/-! SUPPORT. What a step can do, said once: the event taken, what each event does, and what a Step's body does. -/

namespace Sys2Proof.Machine

/-! ## The next event -/

theorem takeEvent_nil {s : State} (h : s.events = []) : takeEvent s = (.step, s) := by simp [takeEvent, h]

theorem takeEvent_cons {s : State} {e : Event} {es : List Event} (h : s.events = e :: es) :
    takeEvent s = (e, { s with events := es }) := by simp [takeEvent, h]

/-- Taking an event changes the schedule alone. -/
theorem takeEvent_state (s : State) : (takeEvent s).2 = { s with events := s.events.tail } := by
  cases s with
  | mk mem v i dt st pc sp stack key pix mode loaded fault config draws events =>
    cases events <;> rfl

/-- Taking an event changes no piece but the schedule. -/
theorem takeEvent_frame (s : State) : Frame s (takeEvent s).2 (fun p => p = .events) := by
  intro p hp
  rw [takeEvent_state]
  cases p <;> first | rfl | simp at hp

/-! ## Events -/

/-- The state an enabled event leaves (R260). -/
def EventEffect (body : State → Host.Outcome State Fault Refusal) (s t : State) : Event → Prop
  | .step => body s = .next t
  | .timerTick => t = timerTick s
  | .keyDown k => t = keyDown s k
  | .keyUp k => t = keyUp s k
  | .load image => t = settle s (loadImage s image)
  | .reset => t = resetCore s
  | .diagSetPixel px py => t = settle s (diagSetPixel s px py)

/-- Everything an event can do when it answers a next state: it was enabled, and the state is its effect (R260). -/
theorem deliver_next {body : State → Host.Outcome State Fault Refusal} {e : Event} {s t : State}
    (h : deliver body e s = .next t) : enabled s e = true ∧ EventEffect body s t e := by
  unfold deliver at h
  split at h
  · rename_i he
    refine ⟨he, ?_⟩
    cases e <;> first | exact h | exact (Host.Outcome.next.inj h).symm
  · exfalso
    unfold stopped at h
    split at h
    · cases h
    · cases e <;> simp at h
      split at h <;> cases h

/-- A KeyDown either completes a wait or only sets its flag (R262, R264). -/
theorem keyDown_cases (s : State) (k : Key) :
    (∃ r, s.mode = .waitingForKey r ∧ s.keyAt k = false ∧
        keyDown s k = completeWait (s.setKey k true) r k) ∨
      keyDown s k = s.setKey k true := by
  unfold keyDown
  split
  · rename_i r h1 h2
    exact .inl ⟨r, h1, h2, rfl⟩
  · exact .inr rfl

/-- A KeyDown of a key that was up completes the wait (R264). -/
theorem keyDown_wait {s : State} {r : Reg} {k : Key} (hm : s.mode = .waitingForKey r) (hk : s.keyAt k = false) :
    keyDown s k = completeWait (s.setKey k true) r k := by
  unfold keyDown; rw [hk, hm]

/-- Every other KeyDown only sets its flag (R262). -/
theorem keyDown_plain {s : State} {k : Key} (h : s.mode = .running ∨ s.keyAt k = true) :
    keyDown s k = s.setKey k true := by
  rcases keyDown_cases s k with ⟨r, h1, h2, -⟩ | h'
  · rcases h with h | h
    · rw [h] at h1; cases h1
    · rw [h] at h2; cases h2
  · exact h'

/-- A Load that fits: the image is copied and entered (R292). -/
theorem loadImage_ok {s : State} {image : List Byte} (h : image.length + 0x200 ≤ 4096) :
    loadImage s image = .ok { s.storeBytes 0x200 image with pc := 0x200, loaded := true } := by
  rw [loadImage, if_neg (by simp only [memSize, loadAddr]; omega)]; rfl

/-- A Load that does not fit is reported with its length (R292). -/
theorem loadImage_error {s : State} {image : List Byte} (h : 4096 < image.length + 0x200) :
    loadImage s image = .error (.loadTooLarge image.length) := by
  rw [loadImage, if_pos (by simp only [memSize, loadAddr]; omega)]

/-- A Load either reports and changes nothing, or copies the image and enters it (R292). -/
theorem settle_loadImage_cases (s : State) (image : List Byte) :
    (4096 < image.length + 0x200 ∧ settle s (loadImage s image) = s) ∨
      (image.length + 0x200 ≤ 4096 ∧
        settle s (loadImage s image) = { s.storeBytes 0x200 image with pc := 0x200, loaded := true }) := by
  by_cases h : 4096 < image.length + 0x200
  · exact .inl ⟨h, by rw [loadImage_error h]; rfl⟩
  · exact .inr ⟨by omega, by rw [loadImage_ok (by omega)]; rfl⟩

/-- A port's cell inside the screen (R268, R269). -/
@[simp] theorem portCell_ok (px : Fin 64) (py : Fin 32) : portCell px.val py.val = .ok (px, py) := by
  simp [portCell]

/-- A port outside the screen (R268, R269, D25). -/
theorem portCell_error {px py : Nat} (h : 64 ≤ px ∨ 32 ≤ py) : portCell px py = .error .outOfBounds := by
  rw [portCell, dif_neg (by simp only [screenWidth, screenHeight]; omega)]

/-- A timer tick on one timer (R266). -/
theorem toNat_tickDown (b : Byte) : (tickDown b).toNat = b.toNat - 1 := by
  have := b.isLt
  unfold tickDown
  split
  · rw [BitVec.toNat_sub]; simp; omega
  · simp; omega

/-! ## The body of a Step -/

/-- Everything the fetch can do (R64, R141). -/
theorem fetch_cases (s : State) :
    (∃ t, getWord s s.pc.toNat = .error t ∧ 4095 ≤ s.pc.toNat ∧ t.kind = .outOfBounds ∧
        fetch s = .error (takeFault s t s.pc none)) ∨
      (∃ w, s.pc.toNat + 1 < 4096 ∧ w = wordOfBytes (s.byteAt s.pc.toNat) (s.byteAt (s.pc.toNat + 1)) ∧
        ((decodeWord w = none ∧
            fetch s = .error (takeFault { s with pc := s.pc + 2 } ⟨.illegalInstruction, w.toNat⟩ s.pc (some w))) ∨
          ∃ i, decodeWord w = some i ∧ fetch s = .ok (i, { s with pc := s.pc + 2 }))) := by
  by_cases h : s.pc.toNat + 1 < 4096
  · have h1 : ¬ memSize ≤ s.pc.toNat := by simp only [memSize]; omega
    have h2 : ¬ memSize ≤ s.pc.toNat + 1 := by simp only [memSize]; omega
    have hg : getWord s s.pc.toNat = .ok (wordOfBytes (s.byteAt s.pc.toNat) (s.byteAt (s.pc.toNat + 1))) := by
      rw [getWord, if_neg h1, if_neg h2]
    refine .inr ⟨_, h, rfl, ?_⟩
    unfold fetch
    rw [hg]
    dsimp only
    cases decodeWord _ with
    | none => exact .inl ⟨rfl, rfl⟩
    | some i => exact .inr ⟨i, rfl, rfl⟩
  · by_cases h1 : memSize ≤ s.pc.toNat
    · have hg : getWord s s.pc.toNat = .error ⟨.outOfBounds, s.pc.toNat⟩ := by rw [getWord, if_pos h1]
      exact .inl ⟨_, hg, by simp only [memSize] at h1; omega, rfl, by unfold fetch; rw [hg]⟩
    · have h2 : memSize ≤ s.pc.toNat + 1 := by simp only [memSize]; omega
      have hg : getWord s s.pc.toNat = .error ⟨.outOfBounds, s.pc.toNat + 1⟩ := by
        rw [getWord, if_neg h1, if_pos h2]
      exact .inl ⟨_, hg, by omega, rfl, by unfold fetch; rw [hg]⟩

/-- Everything a Step's body can do: take a fetch fault, take the fault of an illegal word, or execute. -/
theorem stepBody_cases (s : State) :
    (∃ t, stepBody s = .next (takeFault s t s.pc none) ∧ 4095 ≤ s.pc.toNat ∧ t.kind = .outOfBounds) ∨
      (∃ w, stepBody s =
          .next (takeFault { s with pc := s.pc + 2 } ⟨.illegalInstruction, w.toNat⟩ s.pc (some w)) ∧
        decodeWord w = none) ∨
      ∃ w i, w = wordOfBytes (s.byteAt s.pc.toNat) (s.byteAt (s.pc.toNat + 1)) ∧ decodeWord w = some i ∧
        stepBody s = exec i { s with pc := s.pc + 2 } := by
  rcases fetch_cases s with ⟨t, -, hp, hk, hf⟩ | ⟨w, -, hw, ⟨hd, hf⟩ | ⟨i, hd, hf⟩⟩
  · exact .inl ⟨t, by simp [stepBody, hf], hp, hk⟩
  · exact .inr (.inl ⟨w, by simp [stepBody, hf], hd⟩)
  · exact .inr (.inr ⟨w, i, hw, hd, by simp [stepBody, hf]⟩)

/-- Everything an instruction with one check can do (R242). -/
theorem checked_cases {α : Type} (i : Instr) (s : State) (r : Except Trap α) (f : α → State) :
    (∃ t, r = .error t ∧ checked i s r f = .next (raise i t s)) ∨
      ∃ a, r = .ok a ∧ checked i s r f = .next (f a) := by
  cases r with
  | error t => exact .inl ⟨t, rfl, rfl⟩
  | ok a => exact .inr ⟨a, rfl, rfl⟩

end Sys2Proof.Machine
end

