-- ==== Sys2Proof/Laws/Exec.lean ====
section
/-! SUPPORT. The instructions with a check, each taken apart once: what they answer when the check passes. And that
every instruction, and every Step's body, answers a next state. -/

namespace Sys2Proof.Machine

/-- A passing check: the instruction's effect happens. -/
theorem exec_ret_ok {s : State} {j : Fin 16} (h : s.sp.val = j.val + 1) :
    exec .ret s = .next { s with sp := j.castSucc, pc := s.slot j } := by
  rw [exec, execRet, pop_ok h, checked_ok]

@[inherit_doc exec_ret_ok] theorem exec_call_ok {s : State} {j : Fin 16} (nnn : Addr) (h : s.sp.val = j.val) :
    exec (.call nnn) s = .next { s with stack := s.stack.set j.val s.pc, sp := j.succ, pc := zextAddr nnn } := by
  rw [exec, execCall, push_ok _ h, checked_ok]

@[inherit_doc exec_ret_ok] theorem exec_drw_ok {s : State} (x y : Reg) {n : Count}
    (h : n.val = 0 ∨ s.i.toNat + n.val ≤ 4096) : exec (.drw x y n) s = .next (s.drawn x y n) := by
  rw [exec, execDrw, State.ea, Nat.add_zero, checkRange_ok h, checked_ok]

@[inherit_doc exec_ret_ok] theorem exec_skp_ok {s : State} {x : Reg} {k : Key} (h : (s.readV x).toNat = k.val) :
    exec (.skp x) s = .next (s.skipIf (s.keyAt k)) := by
  rw [exec, execSkp, keyIndex_ok (by omega), checked_ok]
  simp only [h]

@[inherit_doc exec_ret_ok] theorem exec_sknp_ok {s : State} {x : Reg} {k : Key} (h : (s.readV x).toNat = k.val) :
    exec (.sknp x) s = .next (s.skipIf (!s.keyAt k)) := by
  rw [exec, execSknp, keyIndex_ok (by omega), checked_ok]
  simp only [h]

@[inherit_doc exec_ret_ok] theorem exec_ldB_ok {s : State} (x : Reg) (h : s.i.toNat + 3 ≤ 4096) :
    exec (.ldB x) s = .next (s.storeBytes s.i.toNat (decimalDigits (s.readV x))) := by
  rw [exec, execLdB, State.ea, Nat.add_zero, checkRange_ok (.inr h), checked_ok]

@[inherit_doc exec_ret_ok] theorem exec_ldMemVx_ok {s : State} {x : Reg} (h : s.i.toNat + x.val < 4096) :
    exec (.ldMemVx x) s = .next (s.storeBytes s.i.toNat (s.regsUpTo x)) := by
  rw [exec, execLdMemVx, State.ea, Nat.add_zero, checkRange_ok (.inr (by omega)), checked_ok]

@[inherit_doc exec_ret_ok] theorem exec_ldVxMem_ok {s : State} {x : Reg} (h : s.i.toNat + x.val < 4096) :
    exec (.ldVxMem x) s = .next { s with v := s.regsFromMem x } := by
  rw [exec, execLdVxMem, State.ea, Nat.add_zero, checkRange_ok (.inr (by omega)), checked_ok]

/-- The stored registers: one byte for each register up to `x`, in order. -/
@[simp] theorem State.length_regsUpTo (s : State) (x : Reg) : (s.regsUpTo x).length = x.val + 1 := by
  simp only [State.regsUpTo, List.length_take, Vector.length_toList]; omega

theorem State.getD_regsUpTo (s : State) {x r : Reg} (h : r.val ≤ x.val) :
    (s.regsUpTo x).getD r.val 0 = s.readV r := by
  have h1 : r.val < x.val + 1 := by omega
  simp [State.regsUpTo, State.readV, List.getD, h1]

/-- The loaded registers: memory's byte up to `x`, the old value above (R205). -/
theorem State.getElem_regsFromMem (s : State) (x r : Reg) :
    (s.regsFromMem x)[r.val] = if r.val ≤ x.val then s.byteAt (s.i.toNat + r.val) else s.readV r := by
  simp [State.regsFromMem, State.ea]

/-- The rows of a sprite: as many as `n`. -/
@[simp] theorem State.length_loadBytes (s : State) (base m : Nat) : (s.loadBytes base m).length = m := by
  simp [State.loadBytes]

/-- Where R240's table gives an instruction a fault, the instruction takes it. -/
theorem exec_tableFault {i : Instr} {s : State} {f : Trap} (h : tableFault s i = some f) :
    exec i s = .next (raise i f s) := by
  cases i <;> simp only [tableFault] at h <;> try cases h
  case ret =>
    split at h <;> cases h
    rename_i h0
    rcases pop_cases s with ⟨h', _⟩ | ⟨_, hp⟩
    · omega
    · simp [exec, execRet, hp]
  case call nnn =>
    split at h <;> cases h
    rename_i h0
    rcases push_cases s s.pc with ⟨h', _⟩ | ⟨_, hp⟩
    · omega
    · simp [exec, execCall, hp]
  case drw x y n =>
    split at h <;> cases h
    rename_i h0
    simp [exec, execDrw, State.ea, checkRange_error h0.1 h0.2]
  case skp x =>
    split at h <;> cases h
    rename_i h0
    simp [exec, execSkp, keyIndex_error (show 16 ≤ (s.readV x).toNat by omega)]
  case sknp x =>
    split at h <;> cases h
    rename_i h0
    simp [exec, execSknp, keyIndex_error (show 16 ≤ (s.readV x).toNat by omega)]
  case ldB x =>
    split at h <;> cases h
    simp [exec, execLdB, State.ea, checkRange_error (show 0 < 3 by omega)
      (show 4096 ≤ s.i.toNat + 3 - 1 by omega)]
  case ldMemVx x =>
    split at h <;> cases h
    simp [exec, execLdMemVx, State.ea, checkRange_error (show 0 < x.val + 1 by omega)
      (show 4096 ≤ s.i.toNat + (x.val + 1) - 1 by omega)]
  case ldVxMem x =>
    split at h <;> cases h
    simp [exec, execLdVxMem, State.ea, checkRange_error (show 0 < x.val + 1 by omega)
      (show 4096 ≤ s.i.toNat + (x.val + 1) - 1 by omega)]

theorem checked_next {α : Type} (i : Instr) (s : State) (r : Except Trap α) (f : α → State) :
    ∃ t, checked i s r f = .next t := by
  cases r <;> exact ⟨_, rfl⟩

/-- Every instruction answers a next state: its effect, or the fault it takes. -/
theorem exec_next (i : Instr) (s : State) : ∃ t, exec i s = .next t := by
  cases i <;> first | exact ⟨_, rfl⟩ | exact checked_next _ _ _ _

/-- Every Step's body answers a next state. -/
theorem stepBody_next (s : State) : ∃ t, stepBody s = .next t := by
  rcases stepBody_cases s with ⟨t, h, -⟩ | ⟨w, h, -⟩ | ⟨w, i, -, -, h⟩
  · exact ⟨_, h⟩
  · exact ⟨_, h⟩
  · rw [h]; exact exec_next _ _

/-- A ready Step is its body, with the event taken from the schedule. -/
theorem step_ready {s : State} (h : StepReady s) : step s = stepBody { s with events := s.events.tail } := by
  obtain ⟨h1, h2, h3⟩ := h
  have ht : takeEvent s = (.step, { s with events := s.events.tail }) := by
    have hs := takeEvent_state s
    rcases h1 with h1 | ⟨es, h1⟩
    · rw [takeEvent_nil h1] at hs ⊢
      rw [← hs]
    · rw [takeEvent_cons h1, h1]
      rfl
  simp [step, ht, deliver, enabled, h2, h3]

end Sys2Proof.Machine
end

