-- ==== Sys2Proof/Laws/PerInstr.lean ====
section
/-! SUPPORT. Laws stated once per instruction. `Row`: the encoded word carries the match bits of its row of the
opcode map (30_encoding.md R95), and its operands fit their fields (R91, R92). -/

namespace Sys2Proof.Laws

/-- The row of R95 an instruction belongs to: its match and its mask. -/
def Row.of : Instr → Word × Word
  | .cls => (0x00E0, 0xFFFF)
  | .ret => (0x00EE, 0xFFFF)
  | .jp _ => (0x1000, 0xF000)
  | .call _ => (0x2000, 0xF000)
  | .seImm _ _ => (0x3000, 0xF000)
  | .sneImm _ _ => (0x4000, 0xF000)
  | .seReg _ _ => (0x5000, 0xF00F)
  | .ldImm _ _ => (0x6000, 0xF000)
  | .addImm _ _ => (0x7000, 0xF000)
  | .ldReg _ _ => (0x8000, 0xF00F)
  | .orReg _ _ => (0x8001, 0xF00F)
  | .andReg _ _ => (0x8002, 0xF00F)
  | .xorReg _ _ => (0x8003, 0xF00F)
  | .addReg _ _ => (0x8004, 0xF00F)
  | .sub _ _ => (0x8005, 0xF00F)
  | .shr _ => (0x8006, 0xF00F)
  | .subn _ _ => (0x8007, 0xF00F)
  | .shl _ => (0x800E, 0xF00F)
  | .sneReg _ _ => (0x9000, 0xF00F)
  | .ldI _ => (0xA000, 0xF000)
  | .jpV0 _ => (0xB000, 0xF000)
  | .rnd _ _ => (0xC000, 0xF000)
  | .drw _ _ _ => (0xD000, 0xF000)
  | .skp _ => (0xE09E, 0xF0FF)
  | .sknp _ => (0xE0A1, 0xF0FF)
  | .ldVxDt _ => (0xF007, 0xF0FF)
  | .ldVxK _ => (0xF00A, 0xF0FF)
  | .ldDtVx _ => (0xF015, 0xF0FF)
  | .ldStVx _ => (0xF018, 0xF0FF)
  | .addI _ => (0xF01E, 0xF0FF)
  | .ldF _ => (0xF029, 0xF0FF)
  | .ldB _ => (0xF033, 0xF0FF)
  | .ldMemVx _ => (0xF055, 0xF0FF)
  | .ldVxMem _ => (0xF065, 0xF0FF)

/-- The word of an instruction selects its row, and the instruction is well formed. -/
def Row.Statement (i : Instr) : Prop := encode i &&& (Row.of i).2 = (Row.of i).1 ∧ i.wellFormed = true

/-! ## Operands fit their fields -/

theorem shapeNnn_fits (nnn : Addr) : (shapeNnn nnn).all Operand.wellFormed = true := by
  simp [shapeNnn, Operand.wellFormed]; exact decide_eq_true nnn.isLt

theorem shapeX_fits (x : Reg) : (shapeX x).all Operand.wellFormed = true := by
  simp [shapeX, Operand.wellFormed]

theorem shapeXkk_fits (x : Reg) (kk : Byte) : (shapeXkk x kk).all Operand.wellFormed = true := by
  simp [shapeXkk, Operand.wellFormed]; exact decide_eq_true kk.isLt

theorem shapeXy_fits (x y : Reg) : (shapeXy x y).all Operand.wellFormed = true := by
  simp [shapeXy, Operand.wellFormed]

/-! ## One lemma per constructor -/

theorem Row.cls : Row.Statement .cls := ⟨by decide, rfl⟩
theorem Row.ret : Row.Statement .ret := ⟨by decide, rfl⟩
theorem Row.jp (nnn : Addr) : Row.Statement (.jp nnn) := ⟨wordNnn_masked _ _, shapeNnn_fits _⟩
theorem Row.call (nnn : Addr) : Row.Statement (.call nnn) := ⟨wordNnn_masked _ _, shapeNnn_fits _⟩
theorem Row.seImm (x : Reg) (kk : Byte) : Row.Statement (.seImm x kk) := ⟨wordXkk_masked _ _ _, shapeXkk_fits _ _⟩
theorem Row.sneImm (x : Reg) (kk : Byte) : Row.Statement (.sneImm x kk) := ⟨wordXkk_masked _ _ _, shapeXkk_fits _ _⟩
theorem Row.seReg (x y : Reg) : Row.Statement (.seReg x y) := ⟨wordXyn_masked _ _ _ _, shapeXy_fits _ _⟩
theorem Row.ldImm (x : Reg) (kk : Byte) : Row.Statement (.ldImm x kk) := ⟨wordXkk_masked _ _ _, shapeXkk_fits _ _⟩
theorem Row.addImm (x : Reg) (kk : Byte) : Row.Statement (.addImm x kk) := ⟨wordXkk_masked _ _ _, shapeXkk_fits _ _⟩
theorem Row.ldReg (x y : Reg) : Row.Statement (.ldReg x y) := ⟨wordXyn_masked _ _ _ _, shapeXy_fits _ _⟩
theorem Row.orReg (x y : Reg) : Row.Statement (.orReg x y) := ⟨wordXyn_masked _ _ _ _, shapeXy_fits _ _⟩
theorem Row.andReg (x y : Reg) : Row.Statement (.andReg x y) := ⟨wordXyn_masked _ _ _ _, shapeXy_fits _ _⟩
theorem Row.xorReg (x y : Reg) : Row.Statement (.xorReg x y) := ⟨wordXyn_masked _ _ _ _, shapeXy_fits _ _⟩
theorem Row.addReg (x y : Reg) : Row.Statement (.addReg x y) := ⟨wordXyn_masked _ _ _ _, shapeXy_fits _ _⟩
theorem Row.sub (x y : Reg) : Row.Statement (.sub x y) := ⟨wordXyn_masked _ _ _ _, shapeXy_fits _ _⟩
theorem Row.shr (x : Reg) : Row.Statement (.shr x) := ⟨wordXyn_masked _ _ _ _, shapeX_fits _⟩
theorem Row.subn (x y : Reg) : Row.Statement (.subn x y) := ⟨wordXyn_masked _ _ _ _, shapeXy_fits _ _⟩
theorem Row.shl (x : Reg) : Row.Statement (.shl x) := ⟨wordXyn_masked _ _ _ _, shapeX_fits _⟩
theorem Row.sneReg (x y : Reg) : Row.Statement (.sneReg x y) := ⟨wordXyn_masked _ _ _ _, shapeXy_fits _ _⟩
theorem Row.ldI (nnn : Addr) : Row.Statement (.ldI nnn) := ⟨wordNnn_masked _ _, shapeNnn_fits _⟩
theorem Row.jpV0 (nnn : Addr) : Row.Statement (.jpV0 nnn) := ⟨wordNnn_masked _ _, shapeNnn_fits _⟩
theorem Row.rnd (x : Reg) (kk : Byte) : Row.Statement (.rnd x kk) := ⟨wordXkk_masked _ _ _, shapeXkk_fits _ _⟩
theorem Row.drw (x y : Reg) (n : Count) : Row.Statement (.drw x y n) :=
  ⟨wordDrw_masked _ _ _ _, by simp [Instr.wellFormed, Instr.operands, Operand.wellFormed]⟩
theorem Row.skp (x : Reg) : Row.Statement (.skp x) := ⟨wordX_masked _ _ _, shapeX_fits _⟩
theorem Row.sknp (x : Reg) : Row.Statement (.sknp x) := ⟨wordX_masked _ _ _, shapeX_fits _⟩
theorem Row.ldVxDt (x : Reg) : Row.Statement (.ldVxDt x) := ⟨wordX_masked _ _ _, shapeX_fits _⟩
theorem Row.ldVxK (x : Reg) : Row.Statement (.ldVxK x) := ⟨wordX_masked _ _ _, shapeX_fits _⟩
theorem Row.ldDtVx (x : Reg) : Row.Statement (.ldDtVx x) := ⟨wordX_masked _ _ _, shapeX_fits _⟩
theorem Row.ldStVx (x : Reg) : Row.Statement (.ldStVx x) := ⟨wordX_masked _ _ _, shapeX_fits _⟩
theorem Row.addI (x : Reg) : Row.Statement (.addI x) := ⟨wordX_masked _ _ _, shapeX_fits _⟩
theorem Row.ldF (x : Reg) : Row.Statement (.ldF x) := ⟨wordX_masked _ _ _, shapeX_fits _⟩
theorem Row.ldB (x : Reg) : Row.Statement (.ldB x) := ⟨wordX_masked _ _ _, shapeX_fits _⟩
theorem Row.ldMemVx (x : Reg) : Row.Statement (.ldMemVx x) := ⟨wordX_masked _ _ _, shapeX_fits _⟩
theorem Row.ldVxMem (x : Reg) : Row.Statement (.ldVxMem x) := ⟨wordX_masked _ _ _, shapeX_fits _⟩

/-! ## Words that decode -/

/-- A word that decodes selects its instruction's row (R94, R95). -/
theorem Row.of_decodeWord {w : Word} {i : Instr} (h : decodeWord w = some i) : w &&& (Row.of i).2 = (Row.of i).1 := by
  unfold decodeWord at h
  split at h
  case h_1 =>
    unfold decode0 at h
    split at h
    · cases h; simp_all [Row.of]
    · split at h
      · cases h; simp_all [Row.of]
      · cases h
  case h_9 hop =>
    have hop : fieldOp w = 8#4 := BitVec.eq_of_toNat_eq hop
    unfold decode8 at h
    dsimp only at h
    split at h <;> cases h
    all_goals
      rename_i hn
      refine ((mask_op_n w 8#4 _).2 ⟨hop, rfl⟩).trans ?_
      rw [show fieldN w = Fin.ofNat 16 (fieldN w).val by simp, hn]
      rfl
  case h_15 hop =>
    have hop : fieldOp w = 0xE#4 := BitVec.eq_of_toNat_eq hop
    unfold decodeE at h
    dsimp only at h
    repeat' split at h
    all_goals cases h
    all_goals exact (mask_op_kk w 0xE#4 _).2 ⟨hop, by assumption⟩
  case h_16 hop =>
    have hop : fieldOp w = 0xF#4 := BitVec.eq_of_toNat_eq hop
    unfold decodeF at h
    dsimp only at h
    repeat' split at h
    all_goals cases h
    all_goals exact (mask_op_kk w 0xF#4 _).2 ⟨hop, by assumption⟩
  case h_6 hop =>
    split at h
    · cases h; exact (mask_op_n w 5#4 0).2 ⟨BitVec.eq_of_toNat_eq hop, by assumption⟩
    · cases h
  case h_10 hop =>
    split at h
    · cases h; exact (mask_op_n w 9#4 0).2 ⟨BitVec.eq_of_toNat_eq hop, by assumption⟩
    · cases h
  all_goals
    cases h
  all_goals
    rename_i hop
    refine ((mask_op w _).2 rfl).trans ?_
    rw [show fieldOp w = BitVec.ofNat 4 (fieldOp w).toNat by simp, hop]
    rfl

/-- A row selects exactly its instruction's words once the words it selects decode to that instruction: the other
direction is `Row.of_decodeWord`. -/
theorem selects_of_row {pat mask : Word} {f : Word → Instr} (hrow : ∀ w, Row.of (f w) = (pat, mask))
    (h : ∀ w, w &&& mask = pat → decodeWord w = some (f w)) : Selects pat mask f := fun w =>
  ⟨h w, fun hd => by simpa [hrow] using Row.of_decodeWord hd⟩

end Sys2Proof.Laws
end

