-- ==== Sys2Proof/Tests/Slice0.lean ====
section
/-! SUPPORT. Tests and witnesses. The expected results of the tests are those of spec/95_test_vectors.md, named in
each docstring (X, V, P); the words are written out from the opcode map 30_encoding.md R95. A witness shows a concrete
state and operands meeting the hypotheses of a statement, at a boundary of their range. -/

namespace Sys2Proof.Tests

open Sys2Proof Sys2Proof.Machine

/-! ## Helpers -/

/-- A loaded core about to fetch from 0x200, all else as after reset (95_test_vectors.md). -/
def ready : State := { State.reset with loaded := true, pc := 0x200 }

/-- Registers set from a list. -/
def withRegs (s : State) : List (Reg × Byte) → State
  | [] => s
  | (r, b) :: l => withRegs (s.writeV r b) l

/-- The next state, if there is one. -/
def next? : Host.Outcome State Machine.Fault Refusal → Option State
  | .next t => some t
  | .fault _ => none
  | .refused _ => none

/-- What a view shows after one Step at a word. -/
def after {α : Type} (s : State) (w : Nat) (view : State → α) : Option α :=
  (next? (step (s.withFetchWord 16 w))).map view

/-- What a view shows after one host event. -/
def afterEvent {α : Type} (s : State) (e : Event) (view : State → α) : Option α :=
  (next? (step { s with events := [e] })).map view

/-- `V[1]` and VF after one Step at a word, from given `V[1]`, `V[2]` and VF: the ALU table of section 2.4. -/
def alu (w : Nat) (a b vf : Byte) : Option (Byte × Byte) :=
  after (withRegs ready [(1, a), (2, b), (15, vf)]) w fun t => (t.readV 1, t.readV 15)

/-- The kind and detail of the fault a Step at a word takes, and `PC` after it. -/
def faultAfter (s : State) (w : Nat) : Option (Option (FaultKind × Nat) × Word) :=
  after s w fun t => (t.fault.map fun f => (f.kind, f.detail), t.pc)

/-! ## WellFormed: an ill-formed term for each check -/

/-- R91: a 4-bit field holds 0..15. -/
theorem test_wf_operand_too_wide : Operand.wellFormed ⟨4, 16⟩ = false := by decide
theorem test_wf_operand_fits : Operand.wellFormed ⟨4, 15⟩ = true := by decide
/-- R40: sixteen glyphs of 33 bytes would reach past 0x200. -/
theorem test_wf_config_font_region :
    Config.wellFormed { defaultConfig with glyphHeight := 33, font := List.replicate 528 0 } = false := by decide
/-- R40: FONT has `GLYPH_HEIGHT` bytes for each glyph. -/
theorem test_wf_config_font_length :
    Config.wellFormed { defaultConfig with font := [0xF0] } = false := by decide
/-- R40, R41: the default parameters meet the requirement. -/
theorem test_wf_config_default : Config.wellFormed defaultConfig = true := by decide

/-! ## Decoding: every row of R95 by a word written out, and the words of section 2.1 -/

theorem test_decode_0 : decodeWord 0b0000000011100000 = some .cls ∧ decodeWord 0b0000000011101110 = some .ret ∧
    decodeWord 0x0000 = none ∧ decodeWord 0x0123 = none ∧ decodeWord 0x00E1 = none := by decide
theorem test_decode_nnn : decodeWord 0b0001101010111100 = some (.jp 0xABC) ∧
    decodeWord 0b0010101010111100 = some (.call 0xABC) ∧ decodeWord 0b1010101010111100 = some (.ldI 0xABC) ∧
    decodeWord 0b1011101010111100 = some (.jpV0 0xABC) := by decide
theorem test_decode_xkk : decodeWord 0b0011001000010000 = some (.seImm 2 0x10) ∧
    decodeWord 0b0100001000010000 = some (.sneImm 2 0x10) ∧ decodeWord 0b0110111110101011 = some (.ldImm 15 0xAB) ∧
    decodeWord 0b0111000111111111 = some (.addImm 1 0xFF) ∧ decodeWord 0b1100001100001111 = some (.rnd 3 0x0F) := by
  decide
theorem test_decode_xy : decodeWord 0b0101000100100000 = some (.seReg 1 2) ∧
    decodeWord 0b1001000100100000 = some (.sneReg 1 2) ∧ decodeWord 0x5121 = none ∧ decodeWord 0x9121 = none := by
  decide
theorem test_decode_8 : decodeWord 0b1000000100100000 = some (.ldReg 1 2) ∧
    decodeWord 0b1000000100100001 = some (.orReg 1 2) ∧ decodeWord 0b1000000100100010 = some (.andReg 1 2) ∧
    decodeWord 0b1000000100100011 = some (.xorReg 1 2) ∧ decodeWord 0b1000000100100100 = some (.addReg 1 2) ∧
    decodeWord 0b1000000100100101 = some (.sub 1 2) ∧ decodeWord 0b1000000111110110 = some (.shr 1) ∧
    decodeWord 0b1000000100100111 = some (.subn 1 2) ∧ decodeWord 0b1000000111111110 = some (.shl 1) ∧
    decodeWord 0x8128 = none ∧ decodeWord 0x812F = none := by decide
theorem test_decode_d : decodeWord 0b1101000100101010 = some (.drw 1 2 0xA) := by decide
theorem test_decode_e : decodeWord 0b1110000110011110 = some (.skp 1) ∧
    decodeWord 0b1110000110100001 = some (.sknp 1) ∧ decodeWord 0xE19F = none := by decide
theorem test_decode_f : decodeWord 0b1111001100000111 = some (.ldVxDt 3) ∧
    decodeWord 0b1111001100001010 = some (.ldVxK 3) ∧ decodeWord 0b1111001100010101 = some (.ldDtVx 3) ∧
    decodeWord 0b1111001100011000 = some (.ldStVx 3) ∧ decodeWord 0b1111001100011110 = some (.addI 3) ∧
    decodeWord 0b1111001100101001 = some (.ldF 3) ∧ decodeWord 0b1111001100110011 = some (.ldB 3) ∧
    decodeWord 0b1111001101010101 = some (.ldMemVx 3) ∧ decodeWord 0b1111111101100101 = some (.ldVxMem 15) ∧
    decodeWord 0xF1FF = none ∧ decodeWord 0xFFFF = none := by decide
/-- Section 2.1: the fields of 0xD12A. -/
theorem test_fields : fieldOp 0xD12A = 0xD ∧ fieldX 0xD12A = 1 ∧ fieldY 0xD12A = 2 ∧ fieldN 0xD12A = 10 ∧
    fieldKk 0xD12A = 0x2A ∧ fieldNnn 0xD12A = 0x12A := by decide
/-- Words encode as R95 lays them out. -/
theorem test_encode : encode (.drw 1 2 0xA) = 0xD12A ∧ encode (.ldVxMem 15) = 0xFF65 ∧ encode (.jp 0xABC) = 0x1ABC ∧
    encode (.shr 1) = 0x8106 ∧ encode (.sknp 1) = 0xE1A1 ∧ encodeBytes (.jp 0xABC) = [0x1A, 0xBC] := by decide
theorem test_decode_bytes : decode [0x1A, 0xBC, 0x77] = .ok (.jp 0xABC, [0x77]) ∧
    decode [0xFF, 0xFF] = .error (.illegal 0xFFFF) ∧ decode [0x12] = .error (.truncated [0x12]) := ⟨rfl, rfl, rfl⟩
theorem test_table_word : decodeTableWord 16 0x1ABC = some (.jp 0xABC) := by decide

/-! ## Display -/

/-- V-D1. -/
theorem test_cls : after { withRegs ready [(15, 1)] with pix := Screen.put Screen.clear 5 6 true } 0x00E0
    (fun t => (t.pixel 5 6, t.readV 15)) = some (false, 1) := by decide
/-- V-D3: two rows of eight, wrapping at both edges. -/
theorem test_drw_wraps : after { (withRegs ready [(0, 62), (1, 31)]).storeBytes 0x300 [0xFF, 0xFF] with i := 0x300 }
    0xD012 (fun t => ([t.pixel 62 31, t.pixel 63 0, t.pixel 5 31, t.pixel 5 0, t.pixel 6 0, t.pixel 61 31], t.readV 15)) =
      some ([true, true, true, true, false, false], 0) := by decide
/-- V-D9: one pixel toggled off, its neighbour on, and a collision. -/
theorem test_drw_collides : after
    { ready.storeBytes 0x300 [0xC0] with i := 0x300, pix := Screen.put Screen.clear 0 0 true } 0xD011
    (fun t => (t.pixel 0 0, t.pixel 1 0, t.readV 15)) = some (false, true, 1) := by decide

/-! ## Control flow -/

/-- V-C10. -/
theorem test_ret : after { ready with sp := 1, stack := State.reset.stack.set 0 0x206 } 0x00EE
    (fun t => (t.pc, t.sp, t.slot 0)) = some (0x206, 0, 0x206) := by decide
/-- V-C11. -/
theorem test_ret_underflow : faultAfter ready 0x00EE = some (some (.stackUnderflow, 0), 0x202) := by decide
/-- V-C2. -/
theorem test_jp : after ready 0x1201 State.pc = some 0x201 := by decide
/-- V-C8. -/
theorem test_call : after { ready with sp := 15 } 0x2300 (fun t => (t.pc, t.sp, t.slot 15)) =
    some (0x300, 16, 0x202) := by decide
/-- V-C9. -/
theorem test_call_overflow : faultAfter { ready with sp := 16 } 0x2300 = some (some (.stackOverflow, 16), 0x202) := by
  decide
/-- V-C13, V-C14. -/
theorem test_seImm : after (withRegs ready [(2, 0x10)]) 0x3210 State.pc = some 0x204 ∧
    after (withRegs ready [(2, 0x11)]) 0x3210 State.pc = some 0x202 := by decide
/-- V-C15, V-C16. -/
theorem test_sneImm : after (withRegs ready [(2, 0x11)]) 0x4210 State.pc = some 0x204 ∧
    after (withRegs ready [(2, 0x10)]) 0x4210 State.pc = some 0x202 := by decide
/-- V-C17, V-C18. -/
theorem test_seReg : after ready 0x5110 State.pc = some 0x204 ∧
    after (withRegs ready [(1, 7), (2, 8)]) 0x5120 State.pc = some 0x202 := by decide
/-- V-C19, V-C20. -/
theorem test_sneReg : after ready 0x9110 State.pc = some 0x202 ∧
    after (withRegs ready [(1, 7), (2, 8)]) 0x9120 State.pc = some 0x204 := by decide
/-- V-C24, V-C25. -/
theorem test_jpV0 : after (withRegs ready [(0, 0xFF)]) 0xBFFF State.pc = some 0x10FE ∧
    after (withRegs ready [(5, 0x40)]) 0xB200 State.pc = some 0x200 := by decide

/-! ## Register loads and the ALU -/

/-- V-A1. -/
theorem test_ldImm : after ready 0x6FAB (fun t => t.readV 15) = some 0xAB := by decide
/-- V-A3, V-A2. -/
theorem test_addImm : alu 0x7101 0xFF 0 5 = some (0x00, 5) ∧ alu 0x71FF 0 0 5 = some (0xFF, 5) := by decide
/-- V-A6. -/
theorem test_ldReg : alu 0x8F10 0x33 0 9 = some (0x33, 0x33) := by decide
/-- V-A7, V-A8, V-A9. -/
theorem test_logic : alu 0x8121 0xF0 0x0F 7 = some (0xFF, 7) ∧ alu 0x8122 0xF3 0x3F 7 = some (0x33, 7) ∧
    alu 0x8123 0xFF 0x0F 7 = some (0xF0, 7) := by decide
/-- X3 (V-A12), V-A13, V-A16. -/
theorem test_addReg : alu 0x8124 100 200 0 = some (44, 1) ∧ alu 0x8124 255 0 1 = some (255, 0) ∧
    alu 0x8114 0x80 0 0 = some (0, 1) := by decide
/-- V-A17, V-A18: VF as destination and as source. -/
theorem test_addReg_vf : alu 0x8F14 1 0 0xFF = some (1, 0) ∧ alu 0x81F4 2 0 1 = some (3, 0) := by decide
/-- X4, V-A20, V-A21. -/
theorem test_sub : alu 0x8125 10 3 0 = some (7, 1) ∧ alu 0x8125 3 10 1 = some (0xF9, 0) ∧
    alu 0x8125 5 5 1 = some (0, 0) := by decide
/-- V-A24, V-A25. -/
theorem test_sub_vf : alu 0x8F15 3 0 10 = some (3, 7) ∧ alu 0x81F5 5 0 1 = some (4, 1) := by decide
/-- V-A30, V-A31, V-A32. -/
theorem test_shr : alu 0x8106 0xFF 0 0 = some (0x7F, 1) ∧ alu 0x8106 0x80 0 1 = some (0x40, 0) ∧
    alu 0x8126 4 0xFF 1 = some (2, 0) := by decide
/-- V-A34, V-A35, V-A36. -/
theorem test_subn : alu 0x8127 3 10 0 = some (7, 1) ∧ alu 0x8127 10 3 1 = some (0xF9, 0) ∧
    alu 0x8127 6 6 1 = some (0, 0) := by decide
/-- V-A38, V-A40. -/
theorem test_shl : alu 0x810E 0x81 0 0 = some (2, 1) ∧ alu 0x810E 0x7F 0 1 = some (0xFE, 0) := by decide
/-- V-A33, V-A43: the shifts with x = F leave the result. -/
theorem test_shift_vf : alu 0x8F06 0 0 4 = some (0, 2) ∧ alu 0x8F0E 0 0 0xC0 = some (0, 0x80) := by decide
/-- V-A44, V-A45: a mask of 0 gives 0 for every draw, a mask of FF the draw itself; the draw is a free value. -/
theorem test_rnd (s : State) :
    execRnd 1 0xFF s = .next ({ s with draws := s.draws + 1 }.writeV 1 (Config.randomByte s.draws &&& 0xFF)) ∧
      execRnd 1 0 s = .next ({ s with draws := s.draws + 1 }.writeV 1 0) := by
  constructor <;> simp [execRnd, drawRandom]

/-! ## Address register and memory -/

/-- V-M1. -/
theorem test_ldI : after { ready with i := 0x1234 } 0xAFFF State.i = some 0x0FFF := by decide
/-- V-M3, V-M4. -/
theorem test_addI : after { withRegs ready [(0, 1)] with i := 0xFFF } 0xF01E (fun t => (t.i, t.readV 15)) =
      some (0x1000, 0) ∧
    after { withRegs ready [(0, 1)] with i := 0xFFFF } 0xF01E (fun t => (t.i, t.readV 15)) = some (0, 0) := by decide
/-- V-M7, V-M9. -/
theorem test_ldF : after (withRegs ready [(2, 0xF)]) 0xF229 State.i = some 0x04B ∧
    after (withRegs ready [(2, 0xFF)]) 0xF229 State.i = some 0x4FB := by decide
/-- V-M10. -/
theorem test_ldB : after { withRegs ready [(10, 123)] with i := 0x300 } 0xFA33
    (fun t => (t.loadBytes 0x300 3, t.i)) = some ([1, 2, 3], 0x300) := by decide
/-- V-M15. -/
theorem test_ldB_out : after { withRegs ready [(1, 9)] with i := 0xFFE } 0xF133
    (fun t => (t.loadBytes 0xFFE 2, t.fault.map FaultRecord.detail)) = some ([0, 0], some 4096) := by decide
/-- V-M16, V-M19. -/
theorem test_ldMemVx : after { withRegs ready [(0, 0xAA), (1, 0xBB)] with i := 0x400 } 0xF055
      (fun t => (t.loadBytes 0x400 2, t.i)) = some ([0xAA, 0], 0x400) ∧
    faultAfter { ready with i := 0xFF1 } 0xFF55 = some (some (.outOfBounds, 4096), 0x202) := by decide
/-- V-M20. -/
theorem test_ldVxMem : after { (withRegs ready [(3, 9)]).storeBytes 0x300 [1, 2, 3] with i := 0x300 } 0xF265
    (fun t => ([t.readV 0, t.readV 1, t.readV 2, t.readV 3], t.i)) = some ([1, 2, 3, 9], 0x300) := by decide
/-- V-M22. -/
theorem test_ldVxMem_out : after { withRegs ready [(0, 5), (1, 5)] with i := 0xFFF } 0xF165
    (fun t => (t.readV 0, t.readV 1, t.mode)) = some (5, 5, .faulted) := by decide

/-! ## Keyboard and timers -/

/-- V-K1, V-K5. -/
theorem test_skp : after { withRegs ready [(5, 7)] with key := State.reset.key.set 7 true } 0xE59E State.pc =
      some 0x204 ∧
    faultAfter (withRegs ready [(5, 16)]) 0xE59E = some (some (.outOfBounds, 16), 0x202) := by decide
/-- V-K3, V-K6. -/
theorem test_sknp : after (withRegs ready [(5, 7)]) 0xE5A1 State.pc = some 0x204 ∧
    faultAfter (withRegs ready [(5, 0xFF)]) 0xE5A1 = some (some (.outOfBounds, 255), 0x202) := by decide
/-- V-K8. -/
theorem test_ldVxDt : after { ready with dt := 0x3C } 0xF307 (fun t => (t.readV 3, t.dt)) = some (0x3C, 0x3C) := by
  decide
/-- V-K9, V-K11. -/
theorem test_set_timers : after (withRegs ready [(1, 0x3C)]) 0xF115 (fun t => (t.dt, t.st)) = some (0x3C, 0) ∧
    after (withRegs ready [(1, 2)]) 0xF118 (fun t => (t.dt, t.st, soundOn t)) = some (0, 2, true) := by decide
/-- V-K15: the wait, and its end. -/
theorem test_ldVxK : after ready 0xF30A (fun t => (t.mode, t.pc)) = some (.waitingForKey 3, 0x202) ∧
    afterEvent { ready with mode := .waitingForKey 3 } (.keyDown 0xB)
      (fun t => (t.mode, t.readV 3, t.keyAt 0xB)) = some (.running, 0x0B, true) := by decide
/-- V-K16: a KeyDown of a key already down does not end the wait. -/
theorem test_wait_needs_transition : afterEvent
    { ready with mode := .waitingForKey 0, key := State.reset.key.set 3 true } (.keyDown 3)
    (fun t => (t.mode, t.readV 0)) = some (.waitingForKey 0, 0) := by decide
/-- V-K14, V-K13. -/
theorem test_timerTick : afterEvent { ready with dt := 0xFF, st := 1 } .timerTick (fun t => (t.dt, t.st)) =
      some (0xFE, 0) ∧ afterEvent ready .timerTick (fun t => (t.dt, t.st)) = some (0, 0) := by decide
/-- V-K18: the policy decides whether a tick happens in a wait. -/
theorem test_timer_policy : afterEvent { ready with dt := 5, mode := .waitingForKey 0 } .timerTick State.dt = some 4 ∧
    step { ready with mode := .waitingForKey 0, config := { defaultConfig with timersDuringKeyWait := .freeze },
                      events := [.timerTick] } = .refused .timersFrozen := ⟨by decide, rfl⟩

/-! ## Faults, reset and the host's ports -/

/-- V-C4, V-C5: fetch faults. -/
theorem test_fetch_fault : (next? (step { ready with pc := 0xFFF })).map (fun t => (t.fault, t.pc)) =
      some (some ⟨.outOfBounds, 0xFFF, none, 0x1000⟩, 0xFFF) ∧
    (next? (step { ready with pc := 0x1000 })).map (fun t => (t.fault, t.pc)) =
      some (some ⟨.outOfBounds, 0x1000, none, 0x1000⟩, 0x1000) := by decide
/-- V-F1. -/
theorem test_illegal : after ready 0xFFFF (fun t => (t.fault, t.pc, t.mode)) =
    some (some ⟨.illegalInstruction, 0x200, some 0xFFFF, 0xFFFF⟩, 0x202, .faulted) := by decide
/-- P5's last Step: the record of a CALL that overflows. -/
theorem test_fault_record : after { ready with sp := 16 } 0x2200 (fun t => (t.fault, t.pc)) =
    some (some ⟨.stackOverflow, 0x200, some 0x2200, 16⟩, 0x202) := by decide
/-- V-F2, V-K19, V-R2, V-R6: events that are not enabled. -/
theorem test_not_enabled : step { ready with mode := .faulted, events := [.keyDown 1] } = .fault .coreFaulted ∧
    step { ready with mode := .waitingForKey 0 } = .fault .waitingForKey ∧
    step State.reset = .refused .stepBeforeLoad ∧
    step { ready with events := [.load []] } = .refused .loadNotEnabled := ⟨rfl, rfl, rfl, rfl⟩
/-- V-F4: the ports answer from the frozen state. -/
theorem test_status : after ready 0xFFFF (fun t => (status t, isSet t 0 0, soundOn t)) =
    some ((.faulted, true, some ⟨.illegalInstruction, 0x200, some 0xFFFF, 0xFFFF⟩), .ok false, false) := rfl
/-- R240: the codes, 5 in V-F1. -/
theorem test_codes : [FaultKind.outOfBounds, .stackOverflow, .stackUnderflow, .loadTooLarge, .illegalInstruction].map
    FaultKind.code = [1, 2, 3, 4, 5] := rfl
/-- V-F3, V-R1: Reset from a faulted core. -/
theorem test_reset_event : afterEvent { withRegs ready [(3, 9)] with mode := .faulted } .reset
    (fun t => (t.mode, t.readV 3, t.pc, t.loaded, t.loadBytes 0x4B 6)) =
      some (.running, 0, 0, false, [0xF0, 0x80, 0xF0, 0x80, 0x80, 0]) := by decide
/-- V-R1: the font at 0. -/
theorem test_reset_memory : State.reset.loadBytes 0 5 = [0xF0, 0x90, 0x90, 0x90, 0xF0] ∧
    State.reset.byteAt 0x200 = 0 := by decide
/-- V-R5's Load, and an image byte. -/
theorem test_load : afterEvent State.reset (.load [0x12, 0x34]) (fun t => (t.pc, t.loaded, getWord t 0x200)) =
    some (0x200, true, .ok 0x1234) := rfl
/-- V-R4. -/
theorem test_load_too_large :
    hostReport State.reset (.load (List.replicate 3585 0)) = some (.loadTooLarge 3585) := by
  rw [hostReport, loadImage_error (by rw [List.length_replicate]; omega), List.length_replicate]; rfl
/-- V-R7, V-R8, V-R9, V-R10. -/
theorem test_screen_ports : isSet State.reset 63 31 = .ok false ∧ isSet State.reset 64 0 = .error .outOfBounds ∧
    afterEvent State.reset (.diagSetPixel 5 6) (fun t => t.pixel 5 6) = some true ∧
    hostReport State.reset (.diagSetPixel 0 32) = some .outOfBounds := ⟨rfl, rfl, rfl, rfl⟩
/-- X8: the lowest index wins. -/
theorem test_keymap : (setMapping [9, 8, 5, 7, 6, 4, 3, 2, 1, 5, 10, 11, 12, 13, 14, 15]).map
      (fun m => (mapPhysicalToVirtual m 5, mapPhysicalToVirtual m 15, mapPhysicalToVirtual m 99)) =
    some (some 2, some 15, none) ∧ setMapping [1, 2, 3] = none := by decide
/-- X9. -/
theorem test_getWord : getWord (ready.storeBytes 0x200 [0x12, 0x34]) 0x200 = .ok 0x1234 ∧
    getWord ready 0xFFF = .error ⟨.outOfBounds, 0x1000⟩ := ⟨rfl, rfl⟩
/-- The canonical form: writing what an unlisted address reads as takes the entry out. -/
theorem test_memory_canonical : (ready.storeBytes 0x300 [7]).mem = [(0x300, 7)] ∧
    ((ready.storeBytes 0x300 [7]).storeBytes 0x300 [0]).mem = [] ∧
    Memory.wf defaultConfig [(0x300, 7), (0x400, 1)] ∧ ¬ Memory.wf defaultConfig [(0, 0xF0)] := by decide
/-- A table word is fetched and run as the first instruction after reset. -/
theorem test_withFetchWord : (next? (step (State.reset.withFetchWord 16 0x6105))).map (fun t => (t.readV 1, t.pc)) =
    some (5, 0x202) := by decide

/-! ## Witnesses: states and operands that meet the hypotheses of each statement

`answer` names the next state a hypothesis `... = .next t` speaks of. -/

/-- The state an outcome answers, or a given one where it answers none. -/
def answer (s : State) : Host.Outcome State Machine.Fault Refusal → State
  | .next t => t
  | .fault _ => s
  | .refused _ => s

/-- A Step with a word placed at `PC`, and that Step's answer. -/
def atWord (s : State) (w : Nat) : State := s.withFetchWord 16 w

/-- A core that faulted on an illegal word at 0x200. -/
def faultedCore : State :=
  { ready with mode := .faulted, pc := 0x202, fault := some ⟨.illegalInstruction, 0x200, some 0xFFFF, 0xFFFF⟩ }

theorem witness_ResetEventRestoresCore :
    ({ faultedCore with events := [.reset, .step] } : State).events = .reset :: [.step] := rfl

/-- A memory instruction at the last address, in a state with every clause of the invariant. -/
def storing : State := atWord { withRegs ready [(0, 7)] with i := 0xFFF } 0xF055

theorem witness_StepKeepsInvariant : Inv storing ∧ step storing = .next (answer storing (step storing)) :=
  ⟨⟨by decide, by decide, fun _ h => (by cases h), fun h => (by cases h)⟩, rfl⟩

theorem witness_StepKeepsInvariant_faulted : Inv { faultedCore with events := [.reset] } ∧
    step { faultedCore with events := [.reset] } = .next (resetCore faultedCore) :=
  ⟨⟨by decide, by decide, fun _ h => (by cases h; exact ⟨by decide, rfl⟩), fun h => (by cases h)⟩, rfl⟩

/-- The last fetchable word, by default a Step. -/
def lastWord : State := { ready.storeBytes 0xFFE [0x1F, 0xFE] with pc := 0xFFE }

theorem witness_StepRunsDecodedInstruction : StepReady lastWord ∧
    lastWord.pc.toNat + 1 < 4096 ∧
    decodeWord (wordAtPc lastWord) = some (.jp 0xFFE) :=
  ⟨⟨.inl rfl, rfl, rfl⟩, by decide, by decide⟩

theorem witness_IllegalWordTakesFault : StepReady { ready with pc := 0xFFE, events := [.step] } ∧
    ({ ready with pc := 0xFFE, events := [.step] } : State).pc.toNat + 1 < 4096 ∧
    decodeWord (wordAtPc { ready with pc := 0xFFE, events := [.step] }) = none :=
  ⟨⟨.inr ⟨[], rfl⟩, rfl, rfl⟩, by decide, by decide⟩

theorem witness_FetchFaultKeepsPc : StepReady { ready with pc := 0xFFF } ∧
    0xFFE < ({ ready with pc := 0xFFF } : State).pc.toNat := ⟨⟨.inl rfl, rfl, rfl⟩, by decide⟩

/-- FaultsArePrecise, once with a word and once with none. -/
theorem witness_FaultsArePrecise_word : StepReady (atWord ready 0x00EE) ∧
    step (atWord ready 0x00EE) = .next (answer ready (step (atWord ready 0x00EE))) ∧
    (answer ready (step (atWord ready 0x00EE))).mode = .faulted := ⟨⟨.inl rfl, rfl, rfl⟩, rfl, by decide⟩

theorem witness_FaultsArePrecise_fetch : StepReady { ready with pc := 0xFFF } ∧
    step { ready with pc := 0xFFF } = .next (answer ready (step { ready with pc := 0xFFF })) ∧
    (answer ready (step { ready with pc := 0xFFF })).mode = .faulted := ⟨⟨.inl rfl, rfl, rfl⟩, rfl, by decide⟩

/-- The table at the first operand that faults and the last that does not, for every row that has one. -/
theorem witness_ExecFaultsExactlyAsTabled : ready.mode ≠ .faulted ∧
    tableFault { ready with i := 0xFFE } (.drw 0 1 3) = some ⟨.outOfBounds, 4096⟩ ∧
    tableFault { ready with i := 0xFFE } (.drw 0 1 2) = none ∧
    tableFault { ready with i := 0xFFE } (.ldB 1) = some ⟨.outOfBounds, 4096⟩ ∧
    tableFault { ready with i := 0xFF1 } (.ldMemVx 15) = some ⟨.outOfBounds, 4096⟩ ∧
    tableFault { ready with i := 0x1000 } (.ldVxMem 0) = some ⟨.outOfBounds, 4096⟩ ∧
    tableFault (withRegs ready [(5, 16)]) (.skp 5) = some ⟨.outOfBounds, 16⟩ ∧
    tableFault (withRegs ready [(5, 15)]) (.sknp 5) = none ∧
    tableFault ready .ret = some ⟨.stackUnderflow, 0⟩ ∧
    tableFault { ready with sp := 16 } (.call 0) = some ⟨.stackOverflow, 16⟩ := by decide

theorem witness_FaultedCoreStopsUntilReset : faultedCore.mode = .faulted ∧
    (∀ es, faultedCore.events ≠ .reset :: es) ∧
    ({ faultedCore with events := [.reset] } : State).mode = .faulted ∧
    ({ faultedCore with events := [.reset] } : State).events = .reset :: [] :=
  ⟨rfl, fun _ h => (by cases h), rfl, rfl⟩

/-- Two sprites drawn on the clear screen, side by side, and a third that meets the second only. -/
def drawnTwo : List Sprite := [⟨0, 0, [0x80]⟩, ⟨63, 31, List.replicate 15 0x80⟩]

theorem witness_ClsClearsScreen : (∀ d ∈ drawnTwo, d.rows.length ≤ 15) ∧ ([0x80] : List Byte).length ≤ 15 ∧
    (drawSprite 63 31 [0x80] (drawSprites drawnTwo Screen.clear)).2 = true := by decide

theorem witness_JpJumps : exec (.jp 0xFFF) ready = .next { ready with pc := 0xFFF } := rfl

theorem witness_DrwXorsSpriteAndReportsCollision : ((0 : Count).val = 0) ∧
    ({ ready with i := 0xFF1 } : State).i.toNat + (15 : Count).val ≤ 4096 := by decide

/-- Both clauses on coverage: a bit that lands on the corner pixel, and a pixel no bit reaches. -/
theorem witness_DrwXorsSpriteAndReportsCollision_pixels :
    spriteCovers 63 31 [0x80] 63 31 ∧ ¬ spriteCovers 63 31 [0x80] 0 0 := by
  refine ⟨⟨0, 0, by decide, by decide, by decide, by decide, by decide⟩, ?_⟩
  rintro ⟨r, c, hr, hc, hb, hx, hy⟩
  have h0 : r = 0 := by simp only [List.length_singleton] at hr; omega
  subst h0
  simp at hy

theorem witness_SpriteDrawnTwiceRestoresScreen : (List.replicate 15 (0xFF : Byte)).length ≤ 15 ∧
    State.reset.pix = Screen.clear := ⟨by decide, rfl⟩

theorem witness_StackIsLifo : ready.sp.val = (0 : Fin 16).val ∧ ({ ready with sp := 15 } : State).sp.val = (15 : Fin 16).val ∧
    ({ ready with sp := 16 } : State).sp.val = 16 ∧ ({ ready with sp := 16 } : State).sp.val = (15 : Fin 16).val + 1 ∧
    ready.sp.val = 0 ∧ ({ ready with sp := 14 } : State).sp.val ≤ 14 := by decide

theorem witness_RetPopsReturnAddress : ({ ready with sp := 16 } : State).sp.val = (15 : Fin 16).val + 1 ∧
    ({ ready with sp := 1 } : State).sp.val = (0 : Fin 16).val + 1 ∧ ready.sp.val = 0 := by decide

theorem witness_CallPushesReturnAddress : ready.sp.val = (0 : Fin 16).val ∧
    ({ ready with sp := 15 } : State).sp.val = (15 : Fin 16).val ∧ ({ ready with sp := 16 } : State).sp.val = 16 := by
  decide

theorem witness_RetUndoesCall : ({ ready with sp := 15 } : State).sp.val = (15 : Fin 16).val ∧
    exec (.call 0x300) { ready with sp := 15 } =
      .next (answer ready (exec (.call 0x300) { ready with sp := 15 })) := ⟨by decide, rfl⟩

theorem witness_KeySkips : ((withRegs ready [(5, 15)]).readV 5).toNat = (15 : Key).val := by decide

/-- The flag clauses of the arithmetic statements: any destination but VF. -/
theorem witness_AddRegCarries : (14 : Reg) ≠ 15 := by decide
theorem witness_SubtractionsSetNotBorrow : (0 : Reg) ≠ 15 := by decide
theorem witness_ShiftsMoveOneBit : (14 : Reg) ≠ 15 := by decide

/-- The tallest glyph the requirement of R40 allows. -/
theorem witness_LdFPointsAtGlyph :
    16 * ({ ready with config := { defaultConfig with glyphHeight := 32 } } : State).config.glyphHeight ≤ 0x200 := by
  decide

theorem witness_LdBStoresDecimalDigits : ({ ready with i := 0xFFD } : State).i.toNat + 3 ≤ 4096 := by decide

theorem witness_LdMemVxStoresRegisters : ({ ready with i := 0xFF0 } : State).i.toNat + (15 : Reg).val < 4096 ∧
    (15 : Reg).val ≤ (15 : Reg).val := by decide

theorem witness_LdVxMemLoadsRegisters : ({ ready with i := 0xFFF } : State).i.toNat + (0 : Reg).val < 4096 ∧
    (0 : Reg).val ≤ (0 : Reg).val := by decide

theorem witness_LoadRestoresStoredRegisters :
    ({ withRegs ready [(2, 9)] with i := 0xFFD } : State).i.toNat + (2 : Reg).val < 4096 ∧
    exec (.ldMemVx 2) { withRegs ready [(2, 9)] with i := 0xFFD } =
      .next (answer ready (exec (.ldMemVx 2) { withRegs ready [(2, 9)] with i := 0xFFD })) ∧
    (2 : Reg).val ≤ (2 : Reg).val ∧ (2 : Reg).val < (3 : Reg).val := ⟨by decide, rfl, by decide, by decide⟩

/-- V-M25: stores of registers that meet `PC` at their first byte and at the last two of memory, and digits of which
the last is the first byte at `PC`, or the first is the second. -/
theorem witness_StoredCodeIsFetched :
    (({ ready with i := 0x202, pc := 0x202 } : State).i.toNat + (1 : Reg).val < 4096 ∧
      ({ ready with i := 0x202, pc := 0x202 } : State).pc.toNat + 1 < 4096 ∧ (1 : Reg).val ≤ (1 : Reg).val ∧
      ({ ready with i := 0x202, pc := 0x202 } : State).pc.toNat = 0x202 + (0 : Reg).val ∧
      ({ ready with i := 0x202, pc := 0x202 } : State).pc.toNat + 1 = 0x202 + (1 : Reg).val) ∧
    (({ ready with i := 0xFF0, pc := 0xFFE } : State).i.toNat + (15 : Reg).val < 4096 ∧
      ({ ready with i := 0xFF0, pc := 0xFFE } : State).pc.toNat + 1 < 4096 ∧
      ({ ready with i := 0xFF0, pc := 0xFFE } : State).pc.toNat = 0xFF0 + (14 : Reg).val ∧
      ({ ready with i := 0xFF0, pc := 0xFFE } : State).pc.toNat + 1 = 0xFF0 + (15 : Reg).val) ∧
    (({ ready with i := 0xFFC, pc := 0xFFE } : State).i.toNat + 3 ≤ 4096 ∧
      ({ ready with i := 0xFFC, pc := 0xFFE } : State).pc.toNat + 1 < 4096 ∧
      ({ ready with i := 0xFFC, pc := 0xFFE } : State).pc.toNat = 0xFFC + 2) ∧
    (({ ready with i := 0xFFD, pc := 0xFFC } : State).i.toNat + 3 ≤ 4096 ∧
      ({ ready with i := 0xFFD, pc := 0xFFC } : State).pc.toNat + 1 = 0xFFD + 0) := by decide

/-- A key wait for `V[15]`, with key 3 down, and one event to come. -/
def waiting (e : Event) : State :=
  { ready with mode := .waitingForKey 15, key := State.reset.key.set 3 true, events := [e] }

theorem witness_KeyEventsWriteKeysAndCompleteWaits :
    ((waiting (.keyDown 15)).events = .keyDown 15 :: [] ∧ (waiting (.keyDown 15)).mode = .waitingForKey 15 ∧
      (waiting (.keyDown 15)).keyAt 15 = false) ∧
    ((waiting (.keyDown 3)).events = .keyDown 3 :: [] ∧ (waiting (.keyDown 3)).mode ≠ .faulted ∧
      (waiting (.keyDown 3)).keyAt 3 = true) ∧
    (({ ready with events := [.keyDown 0] } : State).events = .keyDown 0 :: [] ∧ ready.mode ≠ .faulted ∧
      ready.mode = .running) ∧
    ((waiting (.keyUp 3)).events = .keyUp 3 :: [] ∧ (waiting (.keyUp 3)).mode ≠ .faulted) := by decide

theorem witness_WaitHoldsTheCore : (waiting (.keyDown 0)).mode = .waitingForKey 15 ∧
    (∀ es, (waiting (.keyDown 0)).events ≠ .reset :: es) ∧
    step (waiting (.keyDown 0)) = .next (answer ready (step (waiting (.keyDown 0)))) ∧
    step (waiting .timerTick) = .next (answer ready (step (waiting .timerTick))) :=
  ⟨rfl, fun _ h => (by cases h), rfl, rfl⟩

/-- Both ways a tick is enabled: Running, and in a key wait with the timers running. -/
theorem witness_TimerTickCountsDown : ({ ready with events := [.timerTick] } : State).events = .timerTick :: [] ∧
    ready.mode = .running ∧ (waiting .timerTick).events = .timerTick :: [] ∧
    (∃ r, (waiting .timerTick).mode = .waitingForKey r) ∧
    (waiting .timerTick).config.timersDuringKeyWait = .run := ⟨rfl, rfl, rfl, ⟨15, rfl⟩, rfl⟩

/-- The longest image that fits and the shortest that does not. -/
theorem witness_LoadCopiesImageOrReports :
    ({ State.reset with events := [.load (List.replicate 3584 1)] } : State).events =
      .load (List.replicate 3584 1) :: [] ∧
    State.reset.mode = .running ∧ State.reset.loaded = false ∧
    (List.replicate 3584 (1 : Byte)).length + 0x200 ≤ 4096 ∧ 0 < (List.replicate 3584 (1 : Byte)).length ∧
    4096 < (List.replicate 3585 (1 : Byte)).length + 0x200 := by
  refine ⟨rfl, rfl, rfl, ?_, ?_, ?_⟩ <;> rw [List.length_replicate] <;> omega

theorem witness_ScreenPortsDoNotWrap :
    ({ ready with events := [.diagSetPixel 63 31] } : State).events =
      .diagSetPixel (63 : Fin 64).val (31 : Fin 32).val :: [] ∧
    ({ ready with events := [.diagSetPixel 64 0] } : State).events = .diagSetPixel 64 0 :: [] ∧
    ready.mode ≠ .faulted ∧ (64 ≤ 64 ∨ 32 ≤ 0) ∧ (64 ≤ 63 ∨ 32 ≤ 32) := by decide

theorem witness_KeyMapFindsLowestIndex : (List.range 16).length = 16 ∧ (List.range 15).length ≠ 16 := by decide

theorem witness_MemorySetThenGet : 4095 < 4096 ∧ 4096 ≤ 4096 := by decide
theorem witness_GetWordIsBigEndian : 4094 + 1 < 4096 ∧ (4095 : Nat) = 4095 ∧ 4096 ≤ 4096 := by decide

theorem witness_CanonicalMemoryIsUnique : Memory.wf defaultConfig [(0, 1), (0xFFF, 1)] ∧
    ∀ a, Memory.read defaultConfig [(0, 1), (0xFFF, 1)] a = Memory.read defaultConfig [(0, 1), (0xFFF, 1)] a :=
  ⟨by decide, fun _ => rfl⟩

theorem witness_DecodeEncodeAgree : (Instr.drw 15 15 15).wellFormed = true ∧ (Instr.jp 0xFFF).wellFormed = true := by
  decide

theorem witness_EncodeDecodeAgree : decodeWord 0xDFFF = some (.drw 15 15 15) ∧ decodeWord 0x81F6 = some (.shr 1) := by
  decide

theorem witness_DecoderFollowsOpcodeMap : ∃ r ∈ opcodeMap, r.selects 0x81F6 = true := by decide

/-- Each kind of state is changed by the instruction the statement names. -/
theorem witness_OnlyNamedInstructionsWrite :
    (answer ready (exec (.ldB 1) { withRegs ready [(1, 9)] with i := 0xFFD })).byteAt 0xFFF ≠ ready.byteAt 0xFFF ∧
    (answer ready (exec (.ldMemVx 1) { withRegs ready [(1, 9)] with i := 0x300 })).byteAt 0x301 ≠ ready.byteAt 0x301 ∧
    (answer ready (exec (.drw 0 1 1) ready)).pixel 0 0 ≠ ready.pixel 0 0 ∧
    (answer ready (exec (.addI 1) (withRegs ready [(1, 9)]))).i ≠ ready.i ∧
    (answer ready (exec (.ldDtVx 1) (withRegs ready [(1, 9)]))).dt ≠ ready.dt ∧
    (answer ready (exec (.ldStVx 1) (withRegs ready [(1, 9)]))).st ≠ ready.st ∧
    (answer ready (exec (.call 0x300) ready)).sp ≠ ready.sp ∧
    (answer ready (exec (.call 0x300) ready)).slot 0 ≠ ready.slot 0 ∧
    (answer ready (exec (.rnd 1 0xFF) ready)).draws ≠ ready.draws := by decide

theorem witness_OnlyNamedRegistersChange :
    exec (.ldImm 15 0xFF) ready = .next (answer ready (exec (.ldImm 15 0xFF) ready)) ∧
    (answer ready (exec (.ldImm 15 0xFF) ready)).readV 15 ≠ ready.readV 15 := ⟨rfl, by decide⟩

theorem witness_DeadStackSlotsAreUnobserved : ready.sp.val ≤ (0 : Fin 16).val ∧
    ({ ready with sp := 15 } : State).sp.val ≤ (15 : Fin 16).val := by decide

theorem witness_SelfJumpHolds : StepReady lastWord ∧
    lastWord.pc.toNat + 1 < 4096 ∧
    (0xFFE : Addr).toNat = lastWord.pc.toNat ∧
    wordAtPc lastWord = encode (.jp 0xFFE) :=
  ⟨⟨.inl rfl, rfl, rfl⟩, by decide, by decide, by decide⟩

end Sys2Proof.Tests
end

section
/-! SUPPORT. The checked memory accesses (20_memory.md R62, R64): what each answers inside memory and outside it, and
the two statements about them. -/

namespace Sys2Proof.Machine

/-! ## One byte -/

theorem memGet_ok (s : State) {a : Nat} (h : a < 4096) : memGet s a = .ok (s.byteAt a) :=
  if_neg (Nat.not_le.mpr h)

theorem memGet_error (s : State) {a : Nat} (h : 4096 ≤ a) : memGet s a = .error ⟨.outOfBounds, a⟩ := if_pos h

theorem memSet_ok (s : State) {a : Nat} (b : Byte) (h : a < 4096) : memSet s a b = .ok (s.setByte a b) :=
  if_neg (Nat.not_le.mpr h)

theorem memSet_error (s : State) {a : Nat} (b : Byte) (h : 4096 ≤ a) :
    memSet s a b = .error ⟨.outOfBounds, a⟩ := if_pos h

@[simp] theorem State.byteAt_setByte_self (s : State) (a : Nat) (b : Byte) : (s.setByte a b).byteAt a = b := by
  simp [State.byteAt_setByte]

/-- The frame of a store of one byte: that of a store of several, at length one. -/
theorem setByte_frame (s : State) (a : Nat) (b : Byte) : Frame s (s.setByte a b) (fun p => p = .byte a) := by
  refine Frame.mono (storeBytes_frame s a [b]) ?_
  rintro _ ⟨j, hj, rfl⟩
  have hj0 : j = 0 := Nat.lt_one_iff.mp hj
  rw [hj0, Nat.add_zero]

/-! ## One word -/

/-- The value of a word made of two bytes, high byte first (R64, R65). -/
theorem wordOfBytes_toNat (hi lo : Byte) : (wordOfBytes hi lo).toNat = hi.toNat * 256 + lo.toNat := by
  have happend : (wordOfBytes hi lo).toNat = hi.toNat <<< 8 ||| lo.toNat := BitVec.toNat_append hi lo
  rw [happend, ← Nat.shiftLeft_add_eq_or_of_lt lo.isLt, Nat.shiftLeft_eq]

theorem getWord_ok (s : State) {a : Nat} (h : a + 1 < 4096) :
    getWord s a = .ok (wordOfBytes (s.byteAt a) (s.byteAt (a + 1))) := by
  have ha : ¬ memSize ≤ a := by simp only [memSize]; omega
  rw [getWord, if_neg ha, if_neg (Nat.not_le.mpr h)]

theorem getWord_lastByte (s : State) : getWord s 4095 = .error ⟨.outOfBounds, 4096⟩ := rfl

theorem getWord_outside (s : State) {a : Nat} (h : 4096 ≤ a) : getWord s a = .error ⟨.outOfBounds, a⟩ := if_pos h

/-- A word access fails exactly where its second byte lies outside memory (R64). -/
theorem getWord_error_iff (s : State) (a : Nat) : (∃ t, getWord s a = .error t) ↔ 0xFFE < a := by
  constructor
  · rintro ⟨t, ht⟩
    by_contra hle
    rw [getWord_ok s (by omega)] at ht
    cases ht
  · intro hlt
    obtain rfl | hout : a = 4095 ∨ 4096 ≤ a := by omega
    · exact ⟨_, getWord_lastByte s⟩
    · exact ⟨_, getWord_outside s hout⟩

end Sys2Proof.Machine

namespace Sys2Proof.Proofs

open Sys2Proof.Machine

/-- Settles O48: each access by its two cases, and the written state by its read and its frame. -/
theorem memorySetThenGet : Obligations.MemorySetThenGet := by
  intro s a b
  constructor
  · intro hin
    have hread : memGet (s.setByte a b) a = .ok b := by rw [memGet_ok _ hin, State.byteAt_setByte_self]
    exact ⟨memGet_ok s hin, _, memSet_ok s b hin, hread, setByte_frame s a b⟩
  · intro hout
    exact ⟨memGet_error s hout, memSet_error s b hout⟩

/-- Settles O49: the three cases of a word access, and where it fails, read at `PC`. -/
theorem getWordIsBigEndian : Obligations.GetWordIsBigEndian := by
  refine ⟨fun s a => ⟨?inside, ?last, ?outside⟩, fun s => getWord_error_iff s s.pc.toNat⟩
  case inside => exact fun hin => ⟨_, getWord_ok s hin, wordOfBytes_toNat _ _⟩
  case last => rintro rfl; exact getWord_lastByte s
  case outside => exact getWord_outside s

end Sys2Proof.Proofs
end

section
/-! SUPPORT. The clear screen (40_display.md R120): its word, its frame, the sprites drawn after it, and the statement
about it. -/

namespace Sys2Proof.Machine

/-- The frame of a write of the screen. -/
theorem setPix_frame (s : State) (p : Screen) : Frame s { s with pix := p } (fun q => ∃ px py, q = .pixel px py) := by
  intro q hq
  cases q with
  | pixel px py => exact absurd ⟨px, py, rfl⟩ hq
  | _ => rfl

/-- On a screen that was clear, a pixel is set only where one of the drawn sprites covers it (R122). -/
theorem covered_of_get_drawSprites_clear {drawn : List Sprite} {px : Fin 64} {py : Fin 32}
    (hlen : ∀ d ∈ drawn, d.rows.length ≤ 15) (hset : Screen.get (drawSprites drawn Screen.clear) px py = true) :
    ∃ d ∈ drawn, spriteCovers d.x0 d.y0 d.rows px py := by
  by_contra hnone
  have hkept := get_drawSprites_of_not_covered Screen.clear hlen fun d hd hc => hnone ⟨d, hd, hc⟩
  rw [hset, Screen.get_clear] at hkept
  cases hkept

end Sys2Proof.Machine

namespace Sys2Proof.Proofs

open Sys2Proof.Machine

/-- The row of 00E0 fixes all sixteen bits (R95). -/
theorem selects_cls : Selects 0x00E0 0xFFFF (fun _ => .cls) := by
  refine Laws.selects_of_row (fun _ => rfl) fun w hw => ?_
  obtain rfl : w = 0x00E0 := BitVec.and_allOnes.symm.trans hw
  decide

theorem eq_iff_decodeWord_cls (w : Word) : w = 0x00E0 ↔ decodeWord w = some .cls := by
  have hmask : w &&& 0xFFFF = w := BitVec.and_allOnes
  rw [← selects_cls w, hmask]

/-- Settles O11: a collision is a covered pixel that was set before the draw, and after a clear screen such a pixel is
one that a drawn sprite covers. -/
theorem clsClearsScreen : Obligations.ClsClearsScreen := by
  refine fun s => ⟨_, rfl, Screen.get_clear, setPix_frame s _, eq_iff_decodeWord_cls, ?_⟩
  intro drawn x0 y0 rows hdrawn hrows hcollision
  obtain ⟨px, py, hcovers, hset⟩ := (drawSprite_spec x0 y0 _ hrows).2.mp hcollision
  obtain ⟨d, hd, hdcovers⟩ := covered_of_get_drawSprites_clear hdrawn hset
  exact ⟨d, hd, px, py, hdcovers, hcovers⟩

end Sys2Proof.Proofs
end

section
/-! SUPPORT. The stack controller (41_control_flow.md R142): what its two operations leave unchanged and where they
fail, and the statement about them. -/

namespace Sys2Proof.Machine

/-- The stack: the written slot reads the value, every other one reads as before. -/
theorem State.slot_setStack (s : State) (j : Fin 16) (w : Word) (sp : Fin 17) (k : Fin 16) :
    ({ s with stack := s.stack.set j.val w, sp := sp } : State).slot k = if k = j then w else s.slot k :=
  stack_set s.stack j w k

/-- The frame of a write of one slot and `SP`. -/
theorem setStack_frame (s : State) (j : Fin 16) (w : Word) (sp : Fin 17) :
    Frame s { s with stack := s.stack.set j.val w, sp := sp } (fun p => p = .slot j ∨ p = .sp) := by
  intro p hp
  cases p with
  | slot k =>
    have hk : k ≠ j := fun h => hp (.inl (by rw [h]))
    exact (State.slot_setStack s j w sp k).trans (if_neg hk)
  | sp => exact absurd (.inr rfl) hp
  | _ => rfl

/-- The frame of a write of `SP`. -/
theorem setSp_frame (s : State) (sp : Fin 17) : Frame s { s with sp := sp } (fun p => p = .sp) := by
  intro p hp
  cases p with
  | sp => exact absurd rfl hp
  | _ => rfl

/-- A full stack takes no push (R142). -/
theorem push_full {s : State} (w : Word) (h : s.sp.val = 16) : push s w = .error ⟨.stackOverflow, 16⟩ := by
  rcases push_cases s w with ⟨hroom, -⟩ | ⟨-, herror⟩
  · omega
  · exact herror

/-- An empty stack gives no pop (R142). -/
theorem pop_empty {s : State} (h : s.sp.val = 0) : pop s = .error ⟨.stackUnderflow, 0⟩ := by
  rcases pop_cases s with ⟨hsome, -⟩ | ⟨-, herror⟩
  · omega
  · exact herror

/-- A pop returns whatever the slot under `SP` is known to hold. -/
theorem pop_of_slot {s : State} {j : Fin 16} {w : Word} (hsp : s.sp.val = j.val + 1) (hslot : s.slot j = w) :
    pop s = .ok (w, { s with sp := j.castSucc }) := hslot ▸ pop_ok hsp

/-- Last in, first out (R153): the second push leaves the first one's slot alone, so two pops give the values back in
reverse, with `SP` as before. -/
theorem pop_pop_push_push (s : State) (a b : Word) (h : s.sp.val ≤ 14) :
    ∃ s1 s2 s3 s4, push s a = .ok s1 ∧ push s1 b = .ok s2 ∧ pop s2 = .ok (b, s3) ∧ pop s3 = .ok (a, s4) ∧
      s4.sp = s.sp := by
  let i : Fin 16 := ⟨s.sp.val, by omega⟩
  let j : Fin 16 := ⟨s.sp.val + 1, by omega⟩
  have hij : i ≠ j := Fin.ne_of_lt (Nat.lt_succ_self _)
  refine ⟨_, _, _, _, push_ok (j := i) a rfl, push_ok (j := j) b rfl, pop_of_slot (j := j) rfl ?second,
    pop_of_slot (j := i) rfl ?first, rfl⟩
  case second => exact (State.slot_setStack _ j b _ j).trans (if_pos rfl)
  case first =>
    calc _ = State.slot { s with stack := s.stack.set i.val a, sp := i.succ } i :=
          (State.slot_setStack _ j b _ i).trans (if_neg hij)
      _ = a := (State.slot_setStack s i a _ i).trans (if_pos rfl)

end Sys2Proof.Machine

namespace Sys2Proof.Proofs

open Sys2Proof.Machine

/-- Settles O14: each operation by its two cases, and the third pop from an empty stack by `SP` being back at 0. -/
theorem stackIsLifo : Obligations.StackIsLifo := by
  refine ⟨?push, fun s w => push_full w, ?pop, fun s => pop_empty, ?lifo⟩
  case push =>
    intro s w j hsp
    have hslot := (State.slot_setStack s j w j.succ j).trans (if_pos rfl)
    exact ⟨_, push_ok w hsp, hslot, rfl, setStack_frame s j w j.succ⟩
  case pop => exact fun s j hsp => ⟨_, pop_ok hsp, rfl, setSp_frame s _⟩
  case lifo =>
    intro s a b hsp
    obtain ⟨s1, s2, s3, s4, hpush1, hpush2, hpop1, hpop2, hback⟩ := pop_pop_push_push s a b hsp
    exact ⟨s1, s2, s3, s4, hpush1, hpush2, hpop1, hpop2, hback, fun h0 => pop_empty (hback ▸ h0)⟩

end Sys2Proof.Proofs
end

section
/-! SUPPORT. The jump 1nnn and the skips on an immediate 3xkk and 4xkk (41_control_flow.md R144, R147, R148): their
words, and the statements about them. -/

namespace Sys2Proof.Laws

/-- A row whose only fixed bits are `op`: its words are those whose `op` field is it (R95). -/
theorem selects_of_op {op : BitVec 4} {pat : Word} {f : Word → Instr} (hpat : pat = wordXyn op 0 0 0)
    (hrow : ∀ w, Row.of (f w) = (pat, 0xF000)) (hdecode : ∀ w, fieldOp w = op → decodeWord w = some (f w)) :
    Selects pat 0xF000 f :=
  selects_of_row hrow fun w hw => hdecode w ((mask_op w op).mp (hw.trans hpat))

end Sys2Proof.Laws

namespace Sys2Proof.Machine

@[simp] theorem zextAddr_toNat (nnn : Addr) : (zextAddr nnn).toNat = nnn.toNat :=
  BitVec.toNat_setWidth_of_le (by decide)

end Sys2Proof.Machine

namespace Sys2Proof.Proofs

open Sys2Proof.Machine

theorem selects_jp : Selects 0x1000 0xF000 (fun w => .jp (fieldNnn w)) :=
  Laws.selects_of_op (op := 0x1) rfl (fun _ => rfl) fun w hop => by rw [decodeWord, hop]; rfl

theorem selects_seImm : Selects 0x3000 0xF000 (fun w => .seImm (fieldX w) (fieldKk w)) :=
  Laws.selects_of_op (op := 0x3) rfl (fun _ => rfl) fun w hop => by rw [decodeWord, hop]; rfl

theorem selects_sneImm : Selects 0x4000 0xF000 (fun w => .sneImm (fieldX w) (fieldKk w)) :=
  Laws.selects_of_op (op := 0x4) rfl (fun _ => rfl) fun w hop => by rw [decodeWord, hop]; rfl

/-- Settles O18: the jump writes `PC` alone, and a word at 0xFFF has its second byte outside memory. -/
theorem jpJumps : Obligations.JpJumps := by
  refine ⟨selects_jp, fun s nnn => ⟨_, rfl, zextAddr_toNat nnn, ?lastByte, setPc_frame s _⟩⟩
  case lastByte => rintro rfl; exact getWord_lastByte _

/-- Settles O20: both are a conditional skip, 3xkk on equality and 4xkk on its negation. -/
theorem immediateSkips : Obligations.ImmediateSkips := by
  refine ⟨selects_seImm, selects_sneImm, fun s x kk => ⟨⟨_, rfl, ?equal, skipIf_frame s _⟩,
    ⟨_, rfl, ?unequal, skipIf_frame s _⟩⟩⟩
  case equal => simp only [skipIf_pc, decide_eq_true_eq]
  case unequal => simp only [skipIf_pc, decide_eq_true_eq, ne_eq, ite_not]

end Sys2Proof.Proofs
end

section
/-! SUPPORT. The register loads 6xkk and 8xy0 and the flagless addition 7xkk (42_alu.md R172 to R174): their words, and
the statements about them. -/

namespace Sys2Proof.Laws

/-- A row whose fixed bits are `op` and `n`: its words are those whose two fields are these (R95). -/
theorem selects_of_op_n {op : BitVec 4} {n : Count} {pat : Word} {f : Word → Instr} (hpat : pat = wordXyn op 0 0 n)
    (hrow : ∀ w, Row.of (f w) = (pat, 0xF00F))
    (hdecode : ∀ w, fieldOp w = op → fieldN w = n → decodeWord w = some (f w)) : Selects pat 0xF00F f :=
  selects_of_row hrow fun w hw =>
    have ⟨hop, hn⟩ := (mask_op_n w op n).mp (hw.trans hpat)
    hdecode w hop hn

end Sys2Proof.Laws

namespace Sys2Proof.Proofs

open Sys2Proof.Machine

theorem selects_ldImm : Selects 0x6000 0xF000 (fun w => .ldImm (fieldX w) (fieldKk w)) :=
  Laws.selects_of_op (op := 0x6) rfl (fun _ => rfl) fun w hop => by rw [decodeWord, hop]; rfl

theorem selects_addImm : Selects 0x7000 0xF000 (fun w => .addImm (fieldX w) (fieldKk w)) :=
  Laws.selects_of_op (op := 0x7) rfl (fun _ => rfl) fun w hop => by rw [decodeWord, hop]; rfl

theorem selects_ldReg : Selects 0x8000 0xF00F (fun w => .ldReg (fieldX w) (fieldY w)) :=
  Laws.selects_of_op_n (op := 0x8) (n := 0) rfl (fun _ => rfl) fun w hop hn => by
    have hdecode8 : decode8 w = some (.ldReg (fieldX w) (fieldY w)) := by rw [decode8, hn]; rfl
    rw [decodeWord, hop]
    exact hdecode8

/-- Settles O23: the load is one register write. -/
theorem ldImmSetsRegister : Obligations.LdImmSetsRegister :=
  ⟨selects_ldImm, fun s x kk => ⟨_, rfl, State.readV_writeV_self s x kk, writeV_frame s x kk⟩⟩

/-- Settles O24: one register write, of a byte sum, which wraps; no second write for a flag. -/
theorem addImmWrapsWithoutFlag : Obligations.AddImmWrapsWithoutFlag := by
  refine ⟨selects_addImm, fun s x kk => ⟨_, rfl, ?sum, writeV_frame s x _⟩⟩
  case sum => rw [State.readV_writeV_self, BitVec.toNat_add]

/-- Settles O25: the copy is one register write. -/
theorem ldRegCopiesRegister : Obligations.LdRegCopiesRegister :=
  ⟨selects_ldReg, fun s x y => ⟨_, rfl, State.readV_writeV_self s x (s.readV y), writeV_frame s x _⟩⟩

end Sys2Proof.Proofs
end

section
/-! SUPPORT. The load of the address register Annn (43_index_memory.md R200): its words, the frame of a write of `I`,
and the statement about it. -/

namespace Sys2Proof.Machine

/-- The frame of a write of `I`. -/
theorem setI_frame (s : State) (w : Word) : Frame s { s with i := w } (fun p => p = .i) := by
  intro p hp
  cases p with
  | i => exact absurd rfl hp
  | _ => rfl

end Sys2Proof.Machine

namespace Sys2Proof.Proofs

open Sys2Proof.Machine

theorem selects_ldI : Selects 0xA000 0xF000 (fun w => .ldI (fieldNnn w)) :=
  Laws.selects_of_op (op := 0xA) rfl (fun _ => rfl) fun w hop => by rw [decodeWord, hop]; rfl

/-- Settles O31: the load is one write of `I`, of a zero-extended address. -/
theorem ldISetsAddress : Obligations.LdISetsAddress :=
  ⟨selects_ldI, fun s nnn => ⟨_, rfl, zextAddr_toNat nnn, setI_frame s _⟩⟩

end Sys2Proof.Proofs
end

section
/-! SUPPORT. The timer moves Fx07, Fx15 and Fx18 (44_keyboard_timer.md R222, R224, R225): their words, the frames of a
write of `DT` and of `ST`, when the sound output is on, and the statement about them. -/

namespace Sys2Proof.Laws

/-- A row whose fixed bits are `op` and the low byte: its words are those whose two fields are these (R95). -/
theorem selects_of_op_kk {op : BitVec 4} {kk : Byte} {pat : Word} {f : Word → Instr} (hpat : pat = wordXkk op 0 kk)
    (hrow : ∀ w, Row.of (f w) = (pat, 0xF0FF))
    (hdecode : ∀ w, fieldOp w = op → fieldKk w = kk → decodeWord w = some (f w)) : Selects pat 0xF0FF f :=
  selects_of_row hrow fun w hw =>
    have ⟨hop, hkk⟩ := (mask_op_kk w op kk).mp (hw.trans hpat)
    hdecode w hop hkk

/-- A word of family F decodes by its low byte. -/
theorem decodeWord_of_opF {w : Word} (hop : fieldOp w = 0xF) : decodeWord w = decodeF w := by
  rw [decodeWord, hop]; rfl

end Sys2Proof.Laws

namespace Sys2Proof.Machine

/-- The frame of a write of `DT`. -/
theorem setDt_frame (s : State) (b : Byte) : Frame s { s with dt := b } (fun p => p = .dt) := by
  intro p hp
  cases p with
  | dt => exact absurd rfl hp
  | _ => rfl

/-- The frame of a write of `ST`. -/
theorem setSt_frame (s : State) (b : Byte) : Frame s { s with st := b } (fun p => p = .st) := by
  intro p hp
  cases p with
  | st => exact absurd rfl hp
  | _ => rfl

/-- The sound output is on exactly while `ST` is not 0 (R225). -/
theorem soundOn_iff_st_ne_zero (s : State) : soundOn s = true ↔ s.st ≠ 0 := by
  rw [soundOn, decide_eq_true_eq, Nat.pos_iff_ne_zero, BitVec.toNat_ne]
  rfl

end Sys2Proof.Machine

namespace Sys2Proof.Proofs

open Sys2Proof.Machine

theorem selects_ldVxDt : Selects 0xF007 0xF0FF (fun w => .ldVxDt (fieldX w)) :=
  Laws.selects_of_op_kk (op := 0xF) (kk := 0x07) rfl (fun _ => rfl) fun w hop hkk => by
    rw [Laws.decodeWord_of_opF hop, decodeF, hkk]; rfl

theorem selects_ldDtVx : Selects 0xF015 0xF0FF (fun w => .ldDtVx (fieldX w)) :=
  Laws.selects_of_op_kk (op := 0xF) (kk := 0x15) rfl (fun _ => rfl) fun w hop hkk => by
    rw [Laws.decodeWord_of_opF hop, decodeF, hkk]; rfl

theorem selects_ldStVx : Selects 0xF018 0xF0FF (fun w => .ldStVx (fieldX w)) :=
  Laws.selects_of_op_kk (op := 0xF) (kk := 0x18) rfl (fun _ => rfl) fun w hop hkk => by
    rw [Laws.decodeWord_of_opF hop, decodeF, hkk]; rfl

/-- Settles O39: each move is one write, of `V[x]`, `DT` or `ST`, and the sound output follows the new `ST`. -/
theorem timerRegistersMove : Obligations.TimerRegistersMove := by
  refine ⟨selects_ldVxDt, selects_ldDtVx, selects_ldStVx, fun s x => ⟨?readDt, ?setDt, ?setSt⟩⟩
  case readDt => exact ⟨_, rfl, State.readV_writeV_self s x s.dt, writeV_frame s x s.dt⟩
  case setDt => exact ⟨_, rfl, rfl, setDt_frame s (s.readV x)⟩
  case setSt => exact ⟨_, rfl, rfl, soundOn_iff_st_ne_zero _, setSt_frame s (s.readV x)⟩

end Sys2Proof.Proofs
end

section
/-! SUPPORT. The key map (60_exceptions.md R272): the scan is the library's first-index search, and the statement about
it. -/

namespace Sys2Proof.Machine

/-- A list of 16 entries is a table, as it is (R272). -/
theorem setMapping_of_length {table : List PhysicalKey} (h : table.length = 16) :
    ∃ m, setMapping table = some m ∧ m.toList = table := ⟨_, dif_pos h, rfl⟩

/-- A list of any other length is no table (R272). -/
theorem setMapping_of_length_ne {table : List PhysicalKey} (h : table.length ≠ 16) : setMapping table = none :=
  dif_neg h

/-- The scan from `k` finds the first index of the key, counted from `k`. -/
theorem scanFrom_eq_idxOf? (p : PhysicalKey) (k : Nat) (qs : List PhysicalKey) :
    scanFrom p k qs = (qs.idxOf? p).map (k + ·) := by
  induction qs generalizing k with
  | nil => rfl
  | cons q qs ih =>
    rw [scanFrom, List.idxOf?_cons, ih]
    by_cases hq : q = p
    · simp [hq]
    · simp [hq, Function.comp_def, Nat.add_assoc, Nat.add_comm 1]

/-- The host's lookup is the first index of the key in its table: the bound it checks never fails. -/
theorem mapPhysicalToVirtual_eq_finIdxOf? (m : Vector PhysicalKey 16) (p : PhysicalKey) :
    mapPhysicalToVirtual m p = m.finIdxOf? p := by
  rw [mapPhysicalToVirtual, scanFrom_eq_idxOf?, List.idxOf?_eq_map_finIdxOf?_val, Vector.finIdxOf?_toList]
  cases m.finIdxOf? p with
  | none => rfl
  | some k => simp

/-- A key is found exactly when its entry matches and no lower one does (R272). -/
theorem mapPhysicalToVirtual_eq_some_iff {m : Vector PhysicalKey 16} {p : PhysicalKey} {k : Key} :
    mapPhysicalToVirtual m p = some k ↔ m[k.val] = p ∧ ∀ j : Key, j < k → m[j.val] ≠ p := by
  rw [mapPhysicalToVirtual_eq_finIdxOf?]
  exact Vector.finIdxOf?_eq_some_iff

/-- No key is found exactly when no entry matches (R272). -/
theorem mapPhysicalToVirtual_eq_none_iff {m : Vector PhysicalKey 16} {p : PhysicalKey} :
    mapPhysicalToVirtual m p = none ↔ ∀ j : Key, m[j.val] ≠ p := by
  rw [mapPhysicalToVirtual_eq_finIdxOf?, Vector.finIdxOf?_eq_none_iff, Vector.mem_iff_getElem]
  exact ⟨fun h j hj => h ⟨j.val, j.isLt, hj⟩, fun h ⟨i, hi, hp⟩ => h ⟨i, hi⟩ hp⟩

/-- A press produces an event exactly when its key is found, that key's `KeyDown` (R262, R272). -/
theorem pressEvent_eq_some_iff {m : Vector PhysicalKey 16} {p : PhysicalKey} {e : Event} :
    pressEvent m p = some e ↔ ∃ k, mapPhysicalToVirtual m p = some k ∧ e = .keyDown k := by
  rw [pressEvent, Option.map_eq_some_iff]
  exact exists_congr fun _ => and_congr_right fun _ => eq_comm

/-- A release produces an event exactly when its key is found, that key's `KeyUp` (R263, R272). -/
theorem releaseEvent_eq_some_iff {m : Vector PhysicalKey 16} {p : PhysicalKey} {e : Event} :
    releaseEvent m p = some e ↔ ∃ k, mapPhysicalToVirtual m p = some k ∧ e = .keyUp k := by
  rw [releaseEvent, Option.map_eq_some_iff]
  exact exists_congr fun _ => and_congr_right fun _ => eq_comm

end Sys2Proof.Machine

namespace Sys2Proof.Proofs

open Sys2Proof.Machine

/-- Settles O47: the length check decides the mapping, the lookup is the search for the first index, and the two events
are that lookup under a constructor. -/
theorem keyMapFindsLowestIndex : Obligations.KeyMapFindsLowestIndex :=
  ⟨fun _ => ⟨setMapping_of_length, setMapping_of_length_ne⟩, fun _ _ =>
    ⟨fun _ => mapPhysicalToVirtual_eq_some_iff, mapPhysicalToVirtual_eq_none_iff, fun _ => pressEvent_eq_some_iff,
      fun _ => releaseEvent_eq_some_iff⟩⟩

end Sys2Proof.Proofs
end

section
/-! SUPPORT. The decoder and the encoder as the opcode map's rows (30_encoding.md R90 to R97): each row's instruction
filled from a word's fields, and the statements about words, rows and instructions. -/

namespace Sys2Proof.Laws

/-! ## Each row and its instruction -/

/-- The instruction of `i`'s row of R95, its operands taken from the fields of a word (R91, R94). -/
def Row.fill : Instr → Word → Instr
  | .cls, _ => .cls
  | .ret, _ => .ret
  | .jp _, w => .jp (fieldNnn w)
  | .call _, w => .call (fieldNnn w)
  | .seImm _ _, w => .seImm (fieldX w) (fieldKk w)
  | .sneImm _ _, w => .sneImm (fieldX w) (fieldKk w)
  | .seReg _ _, w => .seReg (fieldX w) (fieldY w)
  | .ldImm _ _, w => .ldImm (fieldX w) (fieldKk w)
  | .addImm _ _, w => .addImm (fieldX w) (fieldKk w)
  | .ldReg _ _, w => .ldReg (fieldX w) (fieldY w)
  | .orReg _ _, w => .orReg (fieldX w) (fieldY w)
  | .andReg _ _, w => .andReg (fieldX w) (fieldY w)
  | .xorReg _ _, w => .xorReg (fieldX w) (fieldY w)
  | .addReg _ _, w => .addReg (fieldX w) (fieldY w)
  | .sub _ _, w => .sub (fieldX w) (fieldY w)
  | .shr _, w => .shr (fieldX w)
  | .subn _ _, w => .subn (fieldX w) (fieldY w)
  | .shl _, w => .shl (fieldX w)
  | .sneReg _ _, w => .sneReg (fieldX w) (fieldY w)
  | .ldI _, w => .ldI (fieldNnn w)
  | .jpV0 _, w => .jpV0 (fieldNnn w)
  | .rnd _ _, w => .rnd (fieldX w) (fieldKk w)
  | .drw _ _ _, w => .drw (fieldX w) (fieldY w) (fieldN w)
  | .skp _, w => .skp (fieldX w)
  | .sknp _, w => .sknp (fieldX w)
  | .ldVxDt _, w => .ldVxDt (fieldX w)
  | .ldVxK _, w => .ldVxK (fieldX w)
  | .ldDtVx _, w => .ldDtVx (fieldX w)
  | .ldStVx _, w => .ldStVx (fieldX w)
  | .addI _, w => .addI (fieldX w)
  | .ldF _, w => .ldF (fieldX w)
  | .ldB _, w => .ldB (fieldX w)
  | .ldMemVx _, w => .ldMemVx (fieldX w)
  | .ldVxMem _, w => .ldVxMem (fieldX w)

/-- An instruction filled from a word stays in its row. -/
@[simp] theorem Row.of_fill (i : Instr) (w : Word) : Row.of (Row.fill i w) = Row.of i := by cases i <;> rfl

/-- An instruction is filled from its own word: each operand is read back from the field it was written to (R92). -/
theorem Row.fill_encode (i : Instr) : Row.fill i (encode i) = i := by cases i <;> simp [Row.fill, encode]

/-- The word of an instruction selects its row (R95). -/
theorem Row.encode_masked (i : Instr) : encode i &&& (Row.of i).2 = (Row.of i).1 := by
  cases i
  case cls | ret => decide
  case jp | call | ldI | jpV0 => exact wordNnn_masked _ _
  case seImm | sneImm | ldImm | addImm | rnd => exact wordXkk_masked _ _ _
  case drw => exact wordDrw_masked _ _ _ _
  case seReg | ldReg | orReg | andReg | xorReg | addReg | sub | shr | subn | shl | sneReg =>
    exact wordXyn_masked _ _ _ _
  case skp | sknp | ldVxDt | ldVxK | ldDtVx | ldStVx | addI | ldF | ldB | ldMemVx | ldVxMem =>
    exact wordX_masked _ _ _

/-! ## The families the decoder takes apart further (R94) -/

theorem decodeWord_of_op8 {w : Word} (hop : fieldOp w = 0x8) : decodeWord w = decode8 w := by
  rw [decodeWord, hop]; rfl

theorem decodeWord_of_opE {w : Word} (hop : fieldOp w = 0xE) : decodeWord w = decodeE w := by
  rw [decodeWord, hop]; rfl

/-! ## What a mask keeps (R95) -/

theorem fieldOp_of_masked {w pat : Word} (h : w &&& 0xF000 = pat) : fieldOp w = fieldOp pat := by
  rw [← h, (mask_op w _).mpr rfl, fieldOp_wordXyn]

theorem fields_of_masked_n {w pat : Word} (h : w &&& 0xF00F = pat) :
    fieldOp w = fieldOp pat ∧ fieldN w = fieldN pat := by
  rw [← h, (mask_op_n w _ _).mpr ⟨rfl, rfl⟩, fieldOp_wordXyn, fieldN_wordXyn]
  exact ⟨rfl, rfl⟩

theorem fields_of_masked_kk {w pat : Word} (h : w &&& 0xF0FF = pat) :
    fieldOp w = fieldOp pat ∧ fieldKk w = fieldKk pat := by
  rw [← h, (mask_op_kk w _ _).mpr ⟨rfl, rfl⟩, fieldOp_wordXkk, fieldKk_wordXkk]
  exact ⟨rfl, rfl⟩

theorem eq_of_masked_all {w pat : Word} (h : w &&& 0xFFFF = pat) : w = pat := BitVec.and_allOnes.symm.trans h

/-- Every row: the words its match and mask select are those that decode to its instruction (R94, R95). -/
theorem selects_row (i : Instr) : Selects (Row.of i).1 (Row.of i).2 (Row.fill i) := by
  refine selects_of_row (fun _ => Row.of_fill i _) fun w hw => ?_
  cases i <;> dsimp only [Row.of] at hw
  case cls | ret => rw [eq_of_masked_all hw]; rfl
  case jp | call | seImm | sneImm | ldImm | addImm | ldI | jpV0 | rnd | drw =>
    rw [decodeWord, fieldOp_of_masked hw]; rfl
  case seReg | sneReg =>
    obtain ⟨hop, hn⟩ := fields_of_masked_n hw
    rw [decodeWord, hop]; exact if_pos hn
  case ldReg | orReg | andReg | xorReg | addReg | sub | shr | subn | shl =>
    obtain ⟨hop, hn⟩ := fields_of_masked_n hw
    rw [decodeWord_of_op8 hop, decode8, hn]; rfl
  case skp | sknp =>
    obtain ⟨hop, hkk⟩ := fields_of_masked_kk hw
    rw [decodeWord_of_opE hop, decodeE, hkk]; rfl
  case ldVxDt | ldVxK | ldDtVx | ldStVx | addI | ldF | ldB | ldMemVx | ldVxMem =>
    obtain ⟨hop, hkk⟩ := fields_of_masked_kk hw
    rw [decodeWord_of_opF hop, decodeF, hkk]; rfl

/-- An instruction's own word decodes to it: its word selects its row, and the fields hold its operands. -/
theorem decodeWord_encode (i : Instr) : decodeWord (encode i) = some i := by
  rw [(selects_row i _).mp (Row.encode_masked i), Row.fill_encode]

/-- An instruction's two bytes decode to it, whatever follows them (R90). -/
theorem decode_encodeBytes (i : Instr) (rest : List Byte) : decode (encodeBytes i ++ rest) = .ok (i, rest) := by
  simp [encodeBytes, decode, decodeWord_encode]

end Sys2Proof.Laws

namespace Sys2Proof.Proofs

open Sys2Proof.Laws

/-- Settles O51: the word selects its instruction's row and its fields give the operands back; the two bytes give the
word back. -/
theorem decodeEncodeAgree : Obligations.DecodeEncodeAgree :=
  fun i rest _ => ⟨decodeWord_encode i, decode_encodeBytes i rest⟩

end Sys2Proof.Proofs
end

section
/-! SUPPORT. Words that decode and words that do not (30_encoding.md R91, R94 to R97): the word of a decoded
instruction, the opcode map's rows as those of the instructions, the illegal words of each family, the fields as
numbers, and the statements about them. -/

namespace Sys2Proof.Laws

/-! ## From a word to its instruction and back -/

/-- A word that decodes is the word of its row's instruction filled from its own fields (R94). -/
theorem eq_fill_of_decodeWord {w : Word} {i : Instr} (h : decodeWord w = some i) : i = Row.fill i w :=
  Option.some.inj (h.symm.trans ((selects_row i w).mp (Row.of_decodeWord h)))

/-- The word with the field `y` cleared (R91). -/
theorem wordXyn_clear_y (op : BitVec 4) (x y : Reg) (n : Count) :
    wordXyn op x y n &&& 0xFF0F = wordXyn op x 0 n := by
  show (op ++ BitVec.ofFin (w := 4) x ++ BitVec.ofFin (w := 4) y ++ BitVec.ofFin (w := 4) n :
      BitVec (4 + 4 + 4 + 4)) &&& ((0xF : BitVec 4) ++ (0xF : BitVec 4) ++ (0 : BitVec 4) ++ (0xF : BitVec 4)) =
    op ++ BitVec.ofFin (w := 4) x ++ (0 : BitVec 4) ++ BitVec.ofFin (w := 4) n
  rw [BitVec.and_append, BitVec.and_append, BitVec.and_append]
  have hall (a : BitVec 4) : a &&& 0xF = a := BitVec.and_allOnes
  have hnone (a : BitVec 4) : a &&& 0 = 0 := BitVec.and_zero
  simp only [hall, hnone]

theorem wordXyn_zero_y (w : Word) : wordXyn (fieldOp w) (fieldX w) 0 (fieldN w) = w &&& 0xFF0F := by
  conv_rhs => rw [word_eq_wordXyn w]
  exact (wordXyn_clear_y _ _ _ _).symm

/-- Filling a row from a word it selects and encoding gives the word back, but for the `y` that 8xy6 and 8xyE ignore
(R92, R96, log 10). -/
theorem Row.encode_fill {i : Instr} {w : Word} (h : w &&& (Row.of i).2 = (Row.of i).1) :
    encode (Row.fill i w) = w ∨ (∃ x, i = .shr x ∨ i = .shl x) ∧ encode (Row.fill i w) = w &&& 0xFF0F := by
  cases i <;> dsimp only [Row.of] at h
  case shr x | shl x =>
    obtain ⟨hop, hn⟩ := fields_of_masked_n h
    have hword := wordXyn_zero_y w
    rw [hop, hn] at hword
    exact .inr ⟨⟨x, by simp⟩, hword⟩
  all_goals left
  case cls | ret => exact (eq_of_masked_all h).symm
  case jp | call | ldI | jpV0 =>
    have hword := word_eq_wordNnn w
    rw [fieldOp_of_masked h] at hword
    exact hword.symm
  case seImm | sneImm | ldImm | addImm | rnd =>
    have hword := word_eq_wordXkk w
    rw [fieldOp_of_masked h] at hword
    exact hword.symm
  case drw =>
    have hword := word_eq_wordXyn w
    rw [fieldOp_of_masked h] at hword
    exact hword.symm
  case seReg | ldReg | orReg | andReg | xorReg | addReg | sub | subn | sneReg =>
    obtain ⟨hop, hn⟩ := fields_of_masked_n h
    have hword := word_eq_wordXyn w
    rw [hop, hn] at hword
    exact hword.symm
  case skp | sknp | ldVxDt | ldVxK | ldDtVx | ldStVx | addI | ldF | ldB | ldMemVx | ldVxMem =>
    obtain ⟨hop, hkk⟩ := fields_of_masked_kk h
    have hword := word_eq_wordXkk w
    rw [hop, hkk] at hword
    exact hword.symm

/-! ## The opcode map's rows (R95) -/

/-- The two words of a row of the map. -/
def patAndMask (r : OpcodeRow) : Word × Word := (r.pat, r.mask)

theorem selects_eq_true_iff (r : OpcodeRow) (w : Word) : r.selects w = true ↔ w &&& r.mask = r.pat :=
  decide_eq_true_iff

/-- One instruction of each row, in the map's order. -/
def rowInstrs : List Instr :=
  [.cls, .ret, .jp 0, .call 0, .seImm 0 0, .sneImm 0 0, .seReg 0 0, .ldImm 0 0, .addImm 0 0, .ldReg 0 0, .orReg 0 0,
    .andReg 0 0, .xorReg 0 0, .addReg 0 0, .sub 0 0, .shr 0, .subn 0 0, .shl 0, .sneReg 0 0, .ldI 0, .jpV0 0,
    .rnd 0 0, .drw 0 0 0, .skp 0, .sknp 0, .ldVxDt 0, .ldVxK 0, .ldDtVx 0, .ldStVx 0, .addI 0, .ldF 0, .ldB 0,
    .ldMemVx 0, .ldVxMem 0]

/-- The map's rows are those of the instructions. -/
theorem map_patAndMask_opcodeMap : opcodeMap.map patAndMask = rowInstrs.map Row.of := by decide

theorem nodup_map_patAndMask : (opcodeMap.map patAndMask).Nodup := by decide

/-- Every row of the map is some instruction's. -/
theorem exists_instr_of_row {r : OpcodeRow} (hr : r ∈ opcodeMap) : ∃ i, Row.of i = (r.pat, r.mask) := by
  have hmem : patAndMask r ∈ rowInstrs.map Row.of := map_patAndMask_opcodeMap ▸ List.mem_map_of_mem hr
  obtain ⟨i, -, hi⟩ := List.mem_map.mp hmem
  exact ⟨i, hi⟩

/-- Every instruction has its row in the map. -/
theorem exists_row_of_instr (i : Instr) : ∃ r ∈ opcodeMap, (r.pat, r.mask) = Row.of i := by
  have hmem : Row.of i ∈ opcodeMap.map patAndMask := by
    rw [map_patAndMask_opcodeMap]
    cases i <;> simp [Row.of, rowInstrs]
  exact List.mem_map.mp hmem

/-- A row of the map selects a word exactly when the word decodes to an instruction of that row. -/
theorem selects_iff_decodeWord {r : OpcodeRow} (hr : r ∈ opcodeMap) (w : Word) :
    r.selects w = true ↔ ∃ i, Row.of i = (r.pat, r.mask) ∧ decodeWord w = some i := by
  rw [selects_eq_true_iff]
  constructor
  · intro hsel
    obtain ⟨i, hi⟩ := exists_instr_of_row hr
    have hdecode := selects_row i w
    rw [hi] at hdecode
    exact ⟨Row.fill i w, by rw [Row.of_fill, hi], hdecode.mp hsel⟩
  · rintro ⟨i, hi, hdecode⟩
    simpa [hi] using Row.of_decodeWord hdecode

/-! ## The illegal words of each family (R97) -/

theorem ite_some_eq_none_iff {α : Type} {c : Prop} [Decidable c] {a : α} {o : Option α} :
    (if c then some a else o) = none ↔ ¬ c ∧ o = none := by split <;> simp [*]

theorem decode0_eq_none_iff (w : Word) : decode0 w = none ↔ w ≠ 0x00E0 ∧ w ≠ 0x00EE := by
  simp only [decode0, ite_some_eq_none_iff, and_true, ne_eq]

theorem decode8_eq_none_iff (w : Word) :
    decode8 w = none ↔ (fieldN w).val ∈ [0x8, 0x9, 0xA, 0xB, 0xC, 0xD, 0xF] := by
  unfold decode8
  generalize fieldN w = n
  fin_cases n <;> simp

theorem decodeE_eq_none_iff (w : Word) : decodeE w = none ↔ (fieldKk w).toNat ∉ [0x9E, 0xA1] := by
  simp [decodeE, ite_some_eq_none_iff, ← BitVec.toNat_inj]

theorem decodeF_eq_none_iff (w : Word) : decodeF w = none ↔
    (fieldKk w).toNat ∉ [0x07, 0x0A, 0x15, 0x18, 0x1E, 0x29, 0x33, 0x55, 0x65] := by
  simp [decodeF, ite_some_eq_none_iff, ← BitVec.toNat_inj]

theorem decodeWord_of_op0 {w : Word} (hop : fieldOp w = 0x0) : decodeWord w = decode0 w := by
  rw [decodeWord, hop]; rfl

theorem decodeWord_of_op5 {w : Word} (hop : fieldOp w = 0x5) :
    decodeWord w = if fieldN w = 0 then some (.seReg (fieldX w) (fieldY w)) else none := by
  rw [decodeWord, hop]; rfl

theorem decodeWord_of_op9 {w : Word} (hop : fieldOp w = 0x9) :
    decodeWord w = if fieldN w = 0 then some (.sneReg (fieldX w) (fieldY w)) else none := by
  rw [decodeWord, hop]; rfl

/-- Outside the families 0, 5, 8, 9, E and F every word decodes (R94). -/
theorem decodeWord_ne_none {w : Word} (hop : fieldOp w ∉ [0x0, 0x5, 0x8, 0x9, 0xE, 0xF]) : decodeWord w ≠ none := by
  unfold decodeWord
  generalize fieldOp w = op at hop
  obtain ⟨n⟩ := op
  fin_cases n <;> simp at hop ⊢

/-! ## The fields as numbers (R91) -/

theorem toNat_extractLsb'_16 (w : Word) (start len : Nat) :
    (w.extractLsb' start len).toNat = w.toNat / 2 ^ start % 2 ^ len := by
  rw [BitVec.extractLsb'_toNat, Nat.shiftRight_eq_div_pow]

theorem fieldOp_toNat (w : Word) : (fieldOp w).toNat = w.toNat / 4096 := by
  have hop := toNat_extractLsb'_16 w 12 4
  have hlt := w.isLt
  rw [fieldOp]; omega

theorem fieldX_val (w : Word) : (fieldX w).val = w.toNat / 256 % 16 := toNat_extractLsb'_16 w 8 4

theorem fieldY_val (w : Word) : (fieldY w).val = w.toNat / 16 % 16 := toNat_extractLsb'_16 w 4 4

theorem fieldN_val (w : Word) : (fieldN w).val = w.toNat % 16 := by
  rw [← Nat.div_one w.toNat]; exact toNat_extractLsb'_16 w 0 4

theorem fieldKk_toNat (w : Word) : (fieldKk w).toNat = w.toNat % 256 := by
  rw [← Nat.div_one w.toNat]; exact toNat_extractLsb'_16 w 0 8

theorem fieldNnn_toNat (w : Word) : (fieldNnn w).toNat = w.toNat % 4096 := by
  rw [← Nat.div_one w.toNat]; exact toNat_extractLsb'_16 w 0 12

end Sys2Proof.Laws

namespace Sys2Proof.Proofs

open Sys2Proof.Laws

/-- Settles O52: a decoded word is its row's instruction filled from its own fields. -/
theorem encodeDecodeAgree : Obligations.EncodeDecodeAgree := by
  intro w i hdecode
  have hencode := Row.encode_fill (Row.of_decodeWord hdecode)
  rwa [← eq_fill_of_decodeWord hdecode] at hencode

/-- Settles O53: a selecting row is the row of the decoded instruction, so there is one when the word decodes, none
when it does not, and never two. -/
theorem decoderFollowsOpcodeMap : Obligations.DecoderFollowsOpcodeMap := by
  refine fun w => ⟨⟨?noRow, ?noDecode⟩, ?unique⟩
  case noRow =>
    intro hnone r hr
    refine Bool.eq_false_iff.mpr fun hsel => ?_
    obtain ⟨i, -, hdecode⟩ := (selects_iff_decodeWord hr w).mp hsel
    rw [hnone] at hdecode; cases hdecode
  case noDecode =>
    intro hrows
    refine Option.eq_none_iff_forall_ne_some.mpr fun i hdecode => ?_
    obtain ⟨r, hr, hri⟩ := exists_row_of_instr i
    exact Bool.eq_false_iff.mp (hrows r hr) ((selects_iff_decodeWord hr w).mpr ⟨i, hri.symm, hdecode⟩)
  case unique =>
    intro r hr q hq hrsel hqsel
    obtain ⟨i, hi, hdecodei⟩ := (selects_iff_decodeWord hr w).mp hrsel
    obtain ⟨j, hj, hdecodej⟩ := (selects_iff_decodeWord hq w).mp hqsel
    obtain rfl : i = j := Option.some.inj (hdecodei.symm.trans hdecodej)
    exact List.inj_on_of_nodup_map nodup_map_patAndMask hr hq (hi.symm.trans hj)

/-- Settles O60: the fields by arithmetic, and each row by the law of all rows at one of its instructions. -/
theorem eachRowDecodesToItsInstruction : Obligations.EachRowDecodesToItsInstruction := by
  refine ⟨fun w => ⟨fieldOp_toNat w, fieldX_val w, fieldY_val w, fieldN_val w, fieldKk_toNat w, fieldNnn_toNat w⟩, ?_⟩
  exact ⟨selects_row .cls, selects_row .ret, selects_row (.jp 0), selects_row (.call 0), selects_row (.seImm 0 0),
    selects_row (.sneImm 0 0), selects_row (.seReg 0 0), selects_row (.ldImm 0 0), selects_row (.addImm 0 0),
    selects_row (.ldReg 0 0), selects_row (.orReg 0 0), selects_row (.andReg 0 0), selects_row (.xorReg 0 0),
    selects_row (.addReg 0 0), selects_row (.sub 0 0), selects_row (.shr 0), selects_row (.subn 0 0),
    selects_row (.shl 0), selects_row (.sneReg 0 0), selects_row (.ldI 0), selects_row (.jpV0 0),
    selects_row (.rnd 0 0), selects_row (.drw 0 0 0), selects_row (.skp 0), selects_row (.sknp 0),
    selects_row (.ldVxDt 0), selects_row (.ldVxK 0), selects_row (.ldDtVx 0), selects_row (.ldStVx 0),
    selects_row (.addI 0), selects_row (.ldF 0), selects_row (.ldB 0), selects_row (.ldMemVx 0),
    selects_row (.ldVxMem 0)⟩

/-- Settles O54: by the word's family, each with its own illegal words; the other ten families have none. -/
theorem illegalWordsByFamily : Obligations.IllegalWordsByFamily := by
  intro w
  by_cases hop : fieldOp w ∈ [0x0, 0x5, 0x8, 0x9, 0xE, 0xF]
  · simp only [List.mem_cons, List.not_mem_nil, or_false] at hop
    rcases hop with h | h | h | h | h | h
    · rw [decodeWord_of_op0 h, decode0_eq_none_iff]; simp [h]
    · rw [decodeWord_of_op5 h]; simp [h]
    · rw [decodeWord_of_op8 h, decode8_eq_none_iff]; simp [h]
    · rw [decodeWord_of_op9 h]; simp [h]
    · rw [decodeWord_of_opE h, decodeE_eq_none_iff]; simp [h]
    · rw [decodeWord_of_opF h, decodeF_eq_none_iff]; simp [h]
  · refine iff_of_false (decodeWord_ne_none hop) ?_
    rintro (⟨h, -⟩ | ⟨h | h, -⟩ | ⟨h, -⟩ | ⟨h, -⟩ | ⟨h, -⟩) <;> exact hop (by rw [h]; decide)

/-- Settles O55: thirteen words, run through the decoder. -/
theorem writtenWordsDecode : Obligations.WrittenWordsDecode := by
  unfold Obligations.WrittenWordsDecode
  decide

end Sys2Proof.Proofs
end

section
/-! SUPPORT. What each instruction may write, said once (10_state.md R21 to R35, 40_display.md R125): the pieces of the
state each instruction's effect is confined to where R240's table gives it no fault, what an instruction does to memory,
and the whole-machine statements that follow. -/

namespace Sys2Proof.Machine

/-! ## Frames of the remaining writes -/

/-- The frame of a change of `Mode`. -/
theorem setMode_frame (s : State) (m : Mode) : Frame s { s with mode := m } (fun p => p = .mode) := by
  intro p hp
  cases p with
  | mode => exact absurd rfl hp
  | _ => rfl

/-- The frame of a draw (R183). -/
theorem setDraws_frame (s : State) (n : Nat) : Frame s { s with draws := n } (fun p => p = .draws) := by
  intro p hp
  cases p with
  | draws => exact absurd rfl hp
  | _ => rfl

/-- The frame of a load of registers from memory (R205). -/
theorem regsFromMem_frame (s : State) (x : Reg) :
    Frame s { s with v := s.regsFromMem x } (fun p => ∃ r : Reg, r.val ≤ x.val ∧ p = .reg r) := by
  intro p hp
  cases p with
  | reg r =>
    have hr : ¬ r.val ≤ x.val := fun hle => hp ⟨r, hle, rfl⟩
    exact (State.getElem_regsFromMem s x r).trans (if_neg hr)
  | _ => rfl

/-- The frame of a draw of a sprite (R121). -/
theorem drawn_frame (s : State) (x y : Reg) (n : Count) :
    Frame s (s.drawn x y n) (fun p => p = .reg 15 ∨ ∃ px py, p = .pixel px py) :=
  Frame.mono (Frame.trans (setPix_frame s _) (writeV_frame _ vf _)) fun _ => Or.symm

/-- The frame of a return (R143). -/
theorem setSpPc_frame (s : State) (sp : Fin 17) (w : Word) :
    Frame s { s with sp := sp, pc := w } (fun p => p = .pc ∨ p = .sp) :=
  Frame.mono (Frame.trans (setSp_frame s sp) (setPc_frame _ w)) fun _ => Or.symm

/-- The frame of a call (R145). -/
theorem setStackPc_frame (s : State) (j : Fin 16) (w a : Word) (sp : Fin 17) :
    Frame s { s with stack := s.stack.set j.val w, sp := sp, pc := a } (fun p => p = .pc ∨ p = .sp ∨ p = .slot j) :=
  Frame.mono (Frame.trans (setStack_frame s j w sp) (setPc_frame _ a)) fun _ hp =>
    hp.elim (fun h => .inr h.symm) .inl

/-- The frame of a random byte (R183). -/
theorem drawRandom_writeV_frame (s : State) (x : Reg) (b : Byte) :
    Frame s ((drawRandom s).2.writeV x b) (fun p => p = .reg x ∨ p = .draws) :=
  Frame.mono (Frame.trans (setDraws_frame s _) (writeV_frame _ x b)) fun _ => Or.symm

/-! ## What an instruction may write -/

/-- The pieces of the state an instruction may write when it does not fault. -/
def Writes (s : State) : Instr → Part → Prop
  | .cls, p => ∃ px py, p = .pixel px py
  | .ret, p => p = .pc ∨ p = .sp
  | .call _, p => p = .pc ∨ p = .sp ∨ ∃ j : Fin 16, s.sp.val = j.val ∧ p = .slot j
  | .jp _, p | .jpV0 _, p | .seImm _ _, p | .sneImm _ _, p | .seReg _ _, p | .sneReg _ _, p | .skp _, p
  | .sknp _, p => p = .pc
  | .ldImm x _, p | .addImm x _, p | .ldReg x _, p | .orReg x _, p | .andReg x _, p | .xorReg x _, p
  | .ldVxDt x, p => p = .reg x
  | .addReg x _, p | .sub x _, p | .shr x, p | .subn x _, p | .shl x, p => p = .reg x ∨ p = .reg 15
  | .rnd x _, p => p = .reg x ∨ p = .draws
  | .drw _ _ _, p => p = .reg 15 ∨ ∃ px py, p = .pixel px py
  | .ldI _, p | .addI _, p | .ldF _, p => p = .i
  | .ldVxK _, p => p = .mode
  | .ldDtVx _, p => p = .dt
  | .ldStVx _, p => p = .st
  | .ldB _, p => ∃ j, j < 3 ∧ p = .byte (s.i.toNat + j)
  | .ldMemVx x, p => ∃ j, j ≤ x.val ∧ p = .byte (s.i.toNat + j)
  | .ldVxMem x, p => ∃ r : Reg, r.val ≤ x.val ∧ p = .reg r

/-- The frame of Fx33 (R203). -/
theorem storeDigits_frame (s : State) (b : Byte) :
    Frame s (s.storeBytes s.i.toNat (decimalDigits b)) (fun p => ∃ j, j < 3 ∧ p = .byte (s.i.toNat + j)) :=
  storeBytes_frame s _ _

/-- The frame of Fx55 (R204). -/
theorem storeRegs_frame (s : State) (x : Reg) :
    Frame s (s.storeBytes s.i.toNat (s.regsUpTo x)) (fun p => ∃ j, j ≤ x.val ∧ p = .byte (s.i.toNat + j)) := by
  refine Frame.mono (storeBytes_frame s _ _) ?_
  rintro p ⟨j, hj, hp⟩
  rw [State.length_regsUpTo] at hj
  exact ⟨j, Nat.lt_succ_iff.mp hj, hp⟩

/-- An instruction to which the table gives no fault writes only what it may. -/
theorem exec_frame {i : Instr} {s : State} (h : tableFault s i = none) :
    ∃ t, exec i s = .next t ∧ Frame s t (Writes s i) := by
  cases i <;> simp only [tableFault, ite_eq_right_iff, reduceCtorEq, imp_false] at h
  case cls => exact ⟨_, rfl, setPix_frame s _⟩
  case ret =>
    have hsp : s.sp.val = (⟨s.sp.val - 1, by omega⟩ : Fin 16).val + 1 := (Nat.sub_add_cancel (by omega)).symm
    exact ⟨_, exec_ret_ok hsp, setSpPc_frame s _ _⟩
  case call nnn =>
    let j : Fin 16 := ⟨s.sp.val, by omega⟩
    refine ⟨_, exec_call_ok (j := j) nnn rfl, Frame.mono (setStackPc_frame s j _ _ _) fun p hp => ?_⟩
    exact hp.imp id (Or.imp id fun hslot => ⟨j, rfl, hslot⟩)
  case jp | jpV0 => exact ⟨_, rfl, setPc_frame s _⟩
  case seImm | sneImm | seReg | sneReg => exact ⟨_, rfl, skipIf_frame s _⟩
  case skp x =>
    exact ⟨_, exec_skp_ok (k := ⟨(s.readV x).toNat, by omega⟩) rfl, skipIf_frame s _⟩
  case sknp x =>
    exact ⟨_, exec_sknp_ok (k := ⟨(s.readV x).toNat, by omega⟩) rfl, skipIf_frame s _⟩
  case ldImm | addImm | ldReg | orReg | andReg | xorReg | ldVxDt => exact ⟨_, rfl, writeV_frame s _ _⟩
  case addReg | sub | shr | subn | shl => exact ⟨_, rfl, writeFlagAndResult_frame s _ _ _⟩
  case rnd => exact ⟨_, rfl, drawRandom_writeV_frame s _ _⟩
  case drw x y n => exact ⟨_, exec_drw_ok x y (by omega), drawn_frame s x y n⟩
  case ldI | addI | ldF => exact ⟨_, rfl, setI_frame s _⟩
  case ldVxK => exact ⟨_, rfl, setMode_frame s _⟩
  case ldDtVx => exact ⟨_, rfl, setDt_frame s _⟩
  case ldStVx => exact ⟨_, rfl, setSt_frame s _⟩
  case ldB x => exact ⟨_, exec_ldB_ok x (by omega), storeDigits_frame s _⟩
  case ldMemVx x => exact ⟨_, exec_ldMemVx_ok (by omega), storeRegs_frame s x⟩
  case ldVxMem x => exact ⟨_, exec_ldVxMem_ok (by omega), regsFromMem_frame s x⟩

/-- Everything an instruction can do: take the fault the table gives it, or write what it may. -/
theorem exec_cases {i : Instr} {s t : State} (h : exec i s = .next t) :
    (∃ f, tableFault s i = some f ∧ t = raise i f s) ∨ tableFault s i = none ∧ Frame s t (Writes s i) := by
  cases hf : tableFault s i with
  | some f =>
    rw [exec_tableFault hf] at h
    exact .inl ⟨f, rfl, (Host.Outcome.next.inj h).symm⟩
  | none =>
    obtain ⟨u, hu, hframe⟩ := exec_frame hf
    obtain rfl : u = t := Host.Outcome.next.inj (hu.symm.trans h)
    exact .inr ⟨rfl, hframe⟩

/-- A piece that an instruction changes, and that no fault changes, is one it may write. -/
theorem writes_of_changed {i : Instr} {s t : State} {p : Part} (h : exec i s = .next t) (hp : ¬ p.Same s t)
    (hmode : p ≠ .mode) (hfault : p ≠ .fault) : Writes s i p := by
  rcases exec_cases h with ⟨f, -, rfl⟩ | ⟨-, hframe⟩
  · exact absurd (raise_frame i f s p fun hor => hor.elim hmode hfault) hp
  · exact not_not.mp (mt (hframe p) hp)

/-- No instruction writes a key flag, the load flag, the parameters, the schedule, or, but for a fault, the record. -/
theorem not_writes_host (s : State) (i : Instr) :
    (∀ k, ¬ Writes s i (.key k)) ∧ ¬ Writes s i .loaded ∧ ¬ Writes s i .config ∧ ¬ Writes s i .events ∧
      ¬ Writes s i .fault := by
  cases i <;> simp [Writes]

/-- Only Fx0A writes `Mode` without a fault (R223). -/
theorem writes_mode_iff (s : State) (i : Instr) : Writes s i .mode ↔ ∃ x, i = .ldVxK x := by
  cases i <;> simp [Writes]

/-! ## Which instructions may write each kind of state -/

theorem instr_of_writes_byte {s : State} {i : Instr} {a : Nat} (h : Writes s i (.byte a)) :
    ∃ x, i = .ldB x ∨ i = .ldMemVx x := by
  cases i <;> simp [Writes] at h ⊢

theorem instr_of_writes_pixel {s : State} {i : Instr} {px : Fin 64} {py : Fin 32} (h : Writes s i (.pixel px py)) :
    i = .cls ∨ ∃ x y n, i = .drw x y n := by
  cases i <;> simp [Writes] at h ⊢

theorem instr_of_writes_i {s : State} {i : Instr} (h : Writes s i .i) :
    (∃ nnn, i = .ldI nnn) ∨ ∃ x, i = .addI x ∨ i = .ldF x := by
  cases i <;> simp [Writes] at h ⊢

theorem instr_of_writes_dt {s : State} {i : Instr} (h : Writes s i .dt) : ∃ x, i = .ldDtVx x := by
  cases i <;> simp [Writes] at h ⊢

theorem instr_of_writes_st {s : State} {i : Instr} (h : Writes s i .st) : ∃ x, i = .ldStVx x := by
  cases i <;> simp [Writes] at h ⊢

theorem instr_of_writes_sp {s : State} {i : Instr} (h : Writes s i .sp) : i = .ret ∨ ∃ nnn, i = .call nnn := by
  cases i <;> simp [Writes] at h ⊢

theorem instr_of_writes_slot {s : State} {i : Instr} {j : Fin 16} (h : Writes s i (.slot j)) :
    s.sp.val = j.val ∧ ∃ nnn, i = .call nnn := by
  cases i <;> simp [Writes] at h ⊢
  case call => exact h

theorem instr_of_writes_draws {s : State} {i : Instr} (h : Writes s i .draws) : ∃ x kk, i = .rnd x kk := by
  cases i <;> simp [Writes] at h ⊢

/-- The registers an instruction may write are its destinations (R23, R24). -/
theorem writes_reg_iff (s : State) (i : Instr) (r : Reg) : Writes s i (.reg r) ↔ mayWriteReg r i = true := by
  cases i <;> simp [Writes, mayWriteReg]

/-- An instruction that does not fault leaves no Faulted core behind. -/
theorem exec_mode_ne_faulted {i : Instr} {s t : State} (hmode : s.mode ≠ .faulted) (hf : tableFault s i = none)
    (h : exec i s = .next t) : t.mode ≠ .faulted := by
  by_cases hw : Writes s i .mode
  · obtain ⟨x, rfl⟩ := (writes_mode_iff s i).mp hw
    cases h; exact Mode.noConfusion
  · obtain ⟨u, hu, hframe⟩ := exec_frame hf
    obtain rfl : u = t := Host.Outcome.next.inj (hu.symm.trans h)
    exact fun ht => hmode ((hframe .mode hw).symm.trans ht)

end Sys2Proof.Machine

namespace Sys2Proof.Proofs

open Sys2Proof.Machine

/-- Settles O8: where the table gives a fault the instruction takes it; elsewhere it writes what it may, and that leaves
no Faulted core. -/
theorem execFaultsExactlyAsTabled : Obligations.ExecFaultsExactlyAsTabled := by
  intro i s hmode
  cases hf : tableFault s i with
  | some f =>
    refine ⟨_, exec_tableFault hf, by simp, fun g hg => ?_⟩
    obtain rfl : f = g := Option.some.inj hg
    exact ⟨raise_fault i f s, raise_frame i f s⟩
  | none =>
    obtain ⟨t, ht, -⟩ := exec_frame hf
    exact ⟨t, ht, by simp [exec_mode_ne_faulted hmode hf ht], fun f hf => by cases hf⟩

/-- Settles O56: a changed piece is one the instruction may write, and the instructions that may write each kind of
piece are those named. -/
theorem onlyNamedInstructionsWrite : Obligations.OnlyNamedInstructionsWrite := by
  intro i s t h
  obtain ⟨hkey, hloaded, hconfig, hevents, -⟩ := not_writes_host s i
  have changed {p : Part} (hp : ¬ p.Same s t) (hmode : p ≠ .mode) (hfault : p ≠ .fault) : Writes s i p :=
    writes_of_changed h hp hmode hfault
  have kept (p : Part) (hw : ¬ Writes s i p) (hmode : p ≠ .mode) (hfault : p ≠ .fault) : p.Same s t :=
    not_not.mp fun hp => hw (changed hp hmode hfault)
  refine ⟨fun ⟨a, ha⟩ => instr_of_writes_byte (changed (p := .byte a) ha nofun nofun),
    fun ⟨px, py, hp⟩ => instr_of_writes_pixel (changed (p := .pixel px py) hp nofun nofun),
    fun hi => instr_of_writes_i (changed (p := .i) hi nofun nofun),
    fun hdt => instr_of_writes_dt (changed (p := .dt) hdt nofun nofun),
    fun hst => instr_of_writes_st (changed (p := .st) hst nofun nofun),
    fun hsp => instr_of_writes_sp (changed (p := .sp) hsp nofun nofun),
    fun j hj => instr_of_writes_slot (changed (p := .slot j) hj nofun nofun),
    fun hd => instr_of_writes_draws (changed (p := .draws) hd nofun nofun),
    fun k => kept (.key k) (hkey k) nofun nofun, kept .loaded hloaded nofun nofun,
    kept .config hconfig nofun nofun, kept .events hevents nofun nofun⟩

/-- Settles O57: the registers an instruction may write are its destinations. -/
theorem onlyNamedRegistersChange : Obligations.OnlyNamedRegistersChange :=
  fun i s _ r h hr => (writes_reg_iff s i r).mp (writes_of_changed (p := .reg r) h hr nofun nofun)

end Sys2Proof.Proofs
end

section
/-! SUPPORT. Stack slots at or above `SP` (10_state.md R33): what the instructions that never touch the stack do with
another stack in its place, and the two statements about calls, returns and dead slots. -/

namespace Sys2Proof.Machine

/-! ## Instructions off the stack run alike with any stack -/

theorem skipIf_setStack (s : State) (st : Vector Word 16) (c : Bool) :
    State.skipIf { s with stack := st } c = { s.skipIf c with stack := st } := by cases c <;> rfl

theorem storeBytes_setStack (s : State) (st : Vector Word 16) (base : Nat) (bs : List Byte) :
    State.storeBytes { s with stack := st } base bs = { s.storeBytes base bs with stack := st } := by
  induction bs generalizing s base with
  | nil => rfl
  | cons b bs ih => exact ih (s.setByte base b) (base + 1)

/-- A check that does not look at the stack, with an effect that does not write it. -/
theorem checked_setStack {α : Type} {i : Instr} {s t : State} {st : Vector Word 16} {r : Except Trap α}
    {f g : α → State} (hg : ∀ a, g a = { f a with stack := st }) (h : checked i s r f = .next t) :
    checked i { s with stack := st } r g = .next { t with stack := st } := by
  cases r with
  | error e => cases h; rfl
  | ok a => cases h; exact congrArg Host.Outcome.next (hg a)

/-- Every instruction but 00EE and 2nnn runs the same with another stack, and leaves that stack in place. -/
theorem exec_setStack {i : Instr} {s t : State} (st : Vector Word 16) (hret : i ≠ .ret) (hcall : ∀ nnn, i ≠ .call nnn)
    (h : exec i s = .next t) : exec i { s with stack := st } = .next { t with stack := st } := by
  cases i
  case ret => exact absurd rfl hret
  case call nnn => exact absurd rfl (hcall nnn)
  case drw | ldVxMem => exact checked_setStack (fun _ => rfl) h
  case skp | sknp => exact checked_setStack (fun _ => skipIf_setStack s st _) h
  case ldB | ldMemVx => exact checked_setStack (fun _ => storeBytes_setStack s st _ _) h
  case seImm | sneImm | seReg | sneReg => cases h; exact congrArg Host.Outcome.next (skipIf_setStack s st _)
  all_goals cases h; rfl

/-- The table of faults does not look at the stack's slots (R240). -/
theorem tableFault_setStack (s : State) (st : Vector Word 16) (i : Instr) :
    tableFault { s with stack := st } i = tableFault s i := by cases i <;> rfl

/-! ## Dead slots -/

/-- `Stack[j] <- w`, with `SP` where it is. -/
def State.setSlot (s : State) (j : Fin 16) (w : Word) : State := { s with stack := s.stack.set j.val w }

theorem State.slot_setSlot (s : State) (j : Fin 16) (w : Word) (k : Fin 16) :
    (s.setSlot j w).slot k = if k = j then w else s.slot k := stack_set s.stack j w k

/-- The frame of a write of one slot, seen from a state with the rest of the stack. -/
theorem setStack_frame_of_slots {s t : State} (j : Fin 16) (w : Word) (h : ∀ k, t.slot k = s.slot k) :
    Frame t { t with stack := (s.setSlot j w).stack } (fun p => p = .slot j) := by
  intro p hp
  cases p with
  | slot k =>
    have hk : k ≠ j := fun hkj => hp (by rw [hkj])
    exact ((s.slot_setSlot j w k).trans (if_neg hk)).trans (h k).symm
  | _ => rfl

/-- A call overwrites slot `SP`, so what a slot held before shows in that slot at most. -/
theorem exec_call_setSlot {s : State} (nnn : Addr) (j : Fin 16) (w : Word) (hf : tableFault s (.call nnn) = none) :
    ∃ t u, exec (.call nnn) s = .next t ∧ exec (.call nnn) (s.setSlot j w) = .next u ∧
      Frame t u (fun p => p = .slot j) := by
  simp only [tableFault, ite_eq_right_iff, reduceCtorEq, imp_false] at hf
  let top : Fin 16 := ⟨s.sp.val, by omega⟩
  refine ⟨_, _, exec_call_ok (j := top) nnn rfl, exec_call_ok (s := s.setSlot j w) (j := top) nnn rfl, fun p hp => ?_⟩
  cases p with
  | slot k =>
    have hk : k ≠ j := fun hkj => hp (by rw [hkj])
    have hbelow : (s.setSlot j w).slot k = s.slot k := (s.slot_setSlot j w k).trans (if_neg hk)
    calc _ = if k = top then s.pc else (s.setSlot j w).slot k :=
          State.slot_setStack (s.setSlot j w) top s.pc top.succ k
      _ = if k = top then s.pc else s.slot k := by rw [hbelow]
      _ = _ := (State.slot_setStack s top s.pc top.succ k).symm
  | _ => rfl

/-- A return reads the slot under `SP`, below every dead one. -/
theorem exec_ret_setSlot {s : State} {j : Fin 16} (w : Word) (hj : s.sp.val ≤ j.val) (hf : tableFault s .ret = none) :
    ∃ t u, exec .ret s = .next t ∧ exec .ret (s.setSlot j w) = .next u ∧ Frame t u (fun p => p = .slot j) := by
  simp only [tableFault, ite_eq_right_iff, reduceCtorEq, imp_false] at hf
  let top : Fin 16 := ⟨s.sp.val - 1, by omega⟩
  have hsp : s.sp.val = top.val + 1 := (Nat.sub_add_cancel (by omega)).symm
  have htop : top ≠ j := fun h => by rw [h] at hsp; omega
  refine ⟨_, _, exec_ret_ok hsp, exec_ret_ok (s := s.setSlot j w) hsp, fun p hp => ?_⟩
  cases p with
  | slot k =>
    have hk : k ≠ j := fun hkj => hp (by rw [hkj])
    exact (s.slot_setSlot j w k).trans (if_neg hk)
  | pc => exact (s.slot_setSlot j w top).trans (if_neg htop)
  | _ => rfl

end Sys2Proof.Machine

namespace Sys2Proof.Proofs

open Sys2Proof.Machine

/-- Settles O17: the return finds in slot `j` what the call stored there, the old `PC`, and takes `SP` back to `j`. -/
theorem retUndoesCall : Obligations.RetUndoesCall := by
  intro s t nnn j hsp hcall
  rw [exec_call_ok nnn hsp] at hcall
  cases hcall
  refine ⟨_, exec_ret_ok (j := j) rfl, fun p hp => ?_⟩
  cases p with
  | slot k =>
    have hk : k ≠ j := fun hkj => hp (by rw [hkj])
    exact (State.slot_setStack s j s.pc j.succ k).trans (if_neg hk)
  | pc => exact (State.slot_setStack s j s.pc j.succ j).trans (if_pos rfl)
  | sp => exact Fin.ext hsp.symm
  | _ => rfl

/-- Settles O58: a fault and every instruction off the stack carry the slot along; a return reads below it and a call
overwrites it at most. -/
theorem deadStackSlotsAreUnobserved : Obligations.DeadStackSlotsAreUnobserved := by
  intro i s j w hj
  obtain ⟨t, ht⟩ := exec_next i s
  rcases exec_cases ht with ⟨f, hf, rfl⟩ | ⟨hf, hframe⟩
  · have hfSlot := (tableFault_setStack s (s.setSlot j w).stack i).trans hf
    exact ⟨_, _, ht, exec_tableFault hfSlot, setStack_frame_of_slots (t := raise i f s) j w fun _ => rfl⟩
  by_cases hret : i = .ret
  · subst hret; exact exec_ret_setSlot w hj hf
  by_cases hcall : ∃ nnn, i = .call nnn
  · obtain ⟨nnn, rfl⟩ := hcall; exact exec_call_setSlot nnn j w hf
  · refine ⟨t, _, ht, exec_setStack _ hret (fun nnn h => hcall ⟨nnn, h⟩) ht, setStack_frame_of_slots j w fun k => ?_⟩
    exact hframe (.slot k) fun hw => hcall (instr_of_writes_slot hw).2

end Sys2Proof.Proofs
end

section
/-! SUPPORT. Steps and events (41_control_flow.md R141, 60_exceptions.md R243 to R246 and R260): when a step answers a
next state, what a ready Step does at each kind of word, and the statements about fetching, faults and enabling. -/

namespace Sys2Proof.Machine

/-! ## The next event -/

/-- The frame of a change of the schedule. -/
theorem setEvents_frame (s : State) (es : List Event) : Frame s { s with events := es } (fun p => p = .events) := by
  intro p hp
  cases p with
  | events => exact absurd rfl hp
  | _ => rfl

/-- Whether an event is enabled does not depend on the events after it (R260). -/
@[simp] theorem enabled_setEvents (s : State) (es : List Event) (e : Event) :
    enabled { s with events := es } e = enabled s e := by cases e <;> rfl

theorem enabled_takeEvent (s : State) (e : Event) : enabled (takeEvent s).2 e = enabled s e := by
  rw [takeEvent_state, enabled_setEvents]

/-- An enabled event has its effect (R260). -/
theorem deliver_of_effect {body : State → Host.Outcome State Fault Refusal} {e : Event} {s t : State}
    (he : enabled s e = true) (heffect : EventEffect body s t e) : deliver body e s = .next t := by
  unfold deliver
  rw [if_pos he]
  cases e
  case step => exact heffect
  all_goals exact congrArg Host.Outcome.next heffect.symm

/-- A listed event that is enabled happens, and leaves the schedule. -/
theorem step_of_effect {s t : State} {e : Event} {es : List Event} (hs : s.events = e :: es)
    (he : enabled s e = true) (heffect : EventEffect stepBody { s with events := es } t e) : step s = .next t := by
  rw [step, takeEvent_cons hs]
  exact deliver_of_effect ((enabled_setEvents s es e).trans he) heffect

/-- Every enabled event has an effect. -/
theorem exists_eventEffect (s : State) (e : Event) : ∃ t, EventEffect stepBody s t e := by
  cases e
  case step => exact stepBody_next s
  all_goals exact ⟨_, rfl⟩

/-- A step answers a next state exactly when its event is enabled (R260). -/
theorem step_next_iff (s : State) : (∃ t, step s = .next t) ↔ enabled s (takeEvent s).1 = true := by
  rw [← enabled_takeEvent]
  constructor
  · rintro ⟨t, ht⟩
    exact (deliver_next ht).1
  · intro he
    obtain ⟨t, ht⟩ := exists_eventEffect (takeEvent s).2 (takeEvent s).1
    exact ⟨t, deliver_of_effect he ht⟩

/-- When a timer tick is enabled (D12). -/
theorem timerEnabled_iff (s : State) : timerEnabled s = true ↔
    s.mode = .running ∨ (∃ r, s.mode = .waitingForKey r) ∧ s.config.timersDuringKeyWait = .run := by
  unfold timerEnabled
  split <;> simp [*]

/-- In a Faulted core nothing but Reset is enabled, and the stop has that name (R245). -/
theorem step_of_faulted {s : State} (hmode : s.mode = .faulted) (hevent : (takeEvent s).1 ≠ .reset) :
    step s = .fault .coreFaulted := by
  have hmode' : (takeEvent s).2.mode = .faulted := by rw [takeEvent_state]; exact hmode
  have hoff : enabled (takeEvent s).2 (takeEvent s).1 ≠ true := by
    generalize (takeEvent s).1 = e at hevent
    cases e <;> simp_all [enabled, timerEnabled]
  unfold step deliver
  rw [if_neg hoff]
  exact if_pos hmode'

/-! ## The body of a Step, by the word at `PC` -/

/-- The first address of a word access that fails (R64). -/
theorem getWord_error {a : Nat} (s : State) (h : 0xFFE < a) : getWord s a = .error ⟨.outOfBounds, max a 4096⟩ := by
  obtain rfl | hout : a = 4095 ∨ 4096 ≤ a := by omega
  · rfl
  · rw [getWord_outside s hout, max_eq_left hout]

theorem stepBody_of_fetchFault {s : State} (h : 0xFFE < s.pc.toNat) :
    stepBody s = .next (takeFault s ⟨.outOfBounds, max s.pc.toNat 4096⟩ s.pc none) := by
  rw [stepBody, fetch, getWord_error s h]

theorem stepBody_of_illegal {s : State} (h : s.pc.toNat + 1 < 4096) (hw : decodeWord (wordAtPc s) = none) :
    stepBody s = .next (takeFault { s with pc := s.pc + 2 } ⟨.illegalInstruction, (wordAtPc s).toNat⟩ s.pc
      (some (wordAtPc s))) := by
  rw [wordAtPc] at hw
  simp only [stepBody, fetch, getWord_ok s h, hw, wordAtPc]

theorem stepBody_of_decodes {s : State} {i : Instr} (h : s.pc.toNat + 1 < 4096)
    (hw : decodeWord (wordAtPc s) = some i) : stepBody s = exec i { s with pc := s.pc + 2 } := by
  rw [wordAtPc] at hw
  simp only [stepBody, fetch, getWord_ok s h, hw]

/-- The frame of a fetch: the event is taken and `PC` moves (R141). -/
theorem setEventsPc_frame (s : State) (es : List Event) (w : Word) :
    Frame s { s with events := es, pc := w } (fun p => p = .events ∨ p = .pc) :=
  Frame.trans (setEvents_frame s es) (setPc_frame _ w)

/-- No instruction's fault is a Load's (R240). -/
theorem tableFault_kind {s : State} {i : Instr} {f : Trap} (h : tableFault s i = some f) : f.kind ≠ .loadTooLarge := by
  cases i <;> simp only [tableFault, reduceCtorEq, Option.ite_none_right_eq_some, Option.some.injEq] at h
  all_goals obtain ⟨-, rfl⟩ := h; exact FaultKind.noConfusion

/-- An instruction that faults ignores no field of its word, so its encoding is the word fetched (R244, log 9). -/
theorem encode_of_tableFault {s : State} {w : Word} {i : Instr} {f : Trap} (hdecode : decodeWord w = some i)
    (hf : tableFault s i = some f) : encode i = w := by
  rcases Proofs.encodeDecodeAgree w i hdecode with hencode | ⟨⟨x, rfl | rfl⟩, -⟩
  · exact hencode
  · cases hf
  · cases hf

end Sys2Proof.Machine

namespace Sys2Proof.Proofs

open Sys2Proof.Machine

/-- Settles O4: a ready Step is its body, and the word decides what the body does. -/
theorem stepRunsDecodedInstruction : Obligations.StepRunsDecodedInstruction :=
  fun s _ hready hpc hdecode =>
    (step_ready hready).trans (stepBody_of_decodes (s := { s with events := s.events.tail }) hpc hdecode)

/-- Settles O5: the fetch has moved `PC`, and the fault's entry writes `Mode` and the record alone. -/
theorem illegalWordTakesFault : Obligations.IllegalWordTakesFault := by
  intro s hready hpc hillegal
  have hbody := stepBody_of_illegal (s := { s with events := s.events.tail }) hpc hillegal
  refine ⟨_, (step_ready hready).trans hbody, rfl, rfl, rfl, ?_⟩
  refine Frame.mono (Frame.trans (setEventsPc_frame s _ _) (takeFault_frame _ _ _ _)) ?_
  rintro p ((h | h) | (h | h)) <;> simp [h]

/-- Settles O6: the word access fails before `PC` moves. -/
theorem fetchFaultKeepsPc : Obligations.FetchFaultKeepsPc := by
  intro s hready hpc
  have hbody := stepBody_of_fetchFault (s := { s with events := s.events.tail }) hpc
  refine ⟨_, (step_ready hready).trans hbody, rfl, rfl, ?_⟩
  refine Frame.mono (Frame.trans (setEvents_frame s _) (takeFault_frame _ _ _ _)) ?_
  rintro p (h | h | h) <;> simp [h]

/-- Settles O7: a Step faults at the fetch, at an illegal word, or in an instruction to which the table gives a fault;
each takes it with a record of its own address, and the last rebuilds the word fetched. -/
theorem faultsArePrecise : Obligations.FaultsArePrecise := by
  intro s t hready hstep hmode
  by_cases hpc : 0xFFE < s.pc.toNat
  · obtain ⟨u, hu, -, hfault, hframe⟩ := fetchFaultKeepsPc s hready hpc
    obtain rfl : u = t := Host.Outcome.next.inj (hu.symm.trans hstep)
    exact ⟨Frame.mono hframe fun p => .inr, _, hfault, rfl, FaultKind.noConfusion,
      .inl ⟨rfl, hframe .pc (by simp), hpc⟩⟩
  have hin : s.pc.toNat + 1 < 4096 := by omega
  cases hdecode : decodeWord (wordAtPc s) with
  | none =>
    obtain ⟨u, hu, -, hupc, hfault, hframe⟩ := illegalWordTakesFault s hready hin hdecode
    obtain rfl : u = t := Host.Outcome.next.inj (hu.symm.trans hstep)
    exact ⟨hframe, _, hfault, rfl, FaultKind.noConfusion, .inr ⟨rfl, hupc, Nat.le_of_not_lt hpc⟩⟩
  | some i =>
    rw [stepRunsDecodedInstruction s i hready hin hdecode] at hstep
    rcases exec_cases hstep with ⟨f, hf, rfl⟩ | ⟨hf, -⟩
    · refine ⟨?frame, _, raise_fault i f _, BitVec.add_sub_cancel _ _, tableFault_kind hf, .inr ⟨?word, rfl, ?pc⟩⟩
      case frame =>
        refine Frame.mono (Frame.trans (setEventsPc_frame s s.events.tail _) (raise_frame i f _)) ?_
        rintro p ((h | h) | (h | h)) <;> simp [h]
      case word => exact congrArg some (encode_of_tableFault hdecode hf)
      case pc => exact Nat.le_of_not_lt hpc
    · obtain ⟨-, hrunning, -⟩ := hready
      refine absurd hmode (exec_mode_ne_faulted (fun hfaulted => ?_) hf hstep)
      cases hrunning.symm.trans hfaulted

/-- Settles O9: Reset is enabled in every mode, and no other event in this one. -/
theorem faultedCoreStopsUntilReset : Obligations.FaultedCoreStopsUntilReset := by
  refine fun s hmode => ⟨fun hevents => step_of_faulted hmode ?_, fun es hes => ?_⟩
  · cases hs : s.events with
    | nil => rw [takeEvent_nil hs]; exact Event.noConfusion
    | cons e es => rw [takeEvent_cons hs]; rintro rfl; exact hevents es hs
  · exact ⟨_, step_of_effect hes rfl rfl, rfl, rfl⟩

/-- Settles O10: a step answers exactly when its event is enabled, and each event's row is the model's. -/
theorem eventsHappenExactlyWhenEnabled : Obligations.EventsHappenExactlyWhenEnabled := by
  intro s
  rw [step_next_iff]
  cases hs : s.events with
  | nil => rw [takeEvent_nil hs]; simp [enabled]
  | cons e es =>
    rw [takeEvent_cons hs]
    cases e
    case timerTick => exact timerEnabled_iff s
    all_goals simp [enabled]

/-- Settles O59: the word is the jump's own, and its target is where `PC` was before the fetch. -/
theorem selfJumpHolds : Obligations.SelfJumpHolds := by
  intro s nnn hready hpc htarget hword
  have hdecode : decodeWord (wordAtPc s) = some (.jp nnn) := hword ▸ Laws.decodeWord_encode (.jp nnn)
  have hback : zextAddr nnn = s.pc := BitVec.eq_of_toNat_eq ((zextAddr_toNat nnn).trans htarget)
  refine ⟨_, stepRunsDecodedInstruction s _ hready hpc hdecode, fun p hp => ?_⟩
  cases p with
  | pc => exact hback
  | events => exact absurd rfl hp
  | _ => rfl

end Sys2Proof.Proofs
end

section
/-! SUPPORT. The invariant (10_state.md R43, R44, 60_exceptions.md R243, R244): that every instruction keeps the
canonical form of memory, that every event keeps the invariant, and the statements about it. -/

namespace Sys2Proof.Machine

/-! ## Canonical memory -/

/-- An instruction with one check keeps the canonical form if its effect does: a fault leaves memory alone (R242). -/
theorem checked_keeps_wf {α : Type} {i : Instr} {s t : State} {r : Except Trap α} {f : α → State}
    (hwf : Memory.wf s.config s.mem) (heffect : ∀ a, r = .ok a → Memory.wf (f a).config (f a).mem)
    (h : checked i s r f = .next t) : Memory.wf t.config t.mem := by
  rcases checked_cases i s r f with ⟨e, -, he⟩ | ⟨a, ha, he⟩
  · obtain rfl := Host.Outcome.next.inj (he.symm.trans h); exact hwf
  · obtain rfl := Host.Outcome.next.inj (he.symm.trans h); exact heffect a ha

theorem pop_memory {s : State} {p : Word × State} (h : pop s = .ok p) : p.2.mem = s.mem ∧ p.2.config = s.config := by
  rcases pop_cases s with ⟨_, hpop⟩ | ⟨-, herror⟩
  · rw [hpop] at h; cases h; exact ⟨rfl, rfl⟩
  · rw [herror] at h; cases h

theorem push_memory {s t : State} {w : Word} (h : push s w = .ok t) : t.mem = s.mem ∧ t.config = s.config := by
  rcases push_cases s w with ⟨_, hpush⟩ | ⟨-, herror⟩
  · rw [hpush] at h; cases h; exact ⟨rfl, rfl⟩
  · rw [herror] at h; cases h

theorem inside_of_checkRange {base m : Nat} (h : checkRange base m = .ok ()) : m = 0 ∨ base + m ≤ 4096 := by
  rcases checkRange_cases base m with ⟨hin, -⟩ | ⟨-, herror⟩
  · exact hin
  · rw [herror] at h; cases h

/-- A checked store keeps the canonical form (R63). -/
theorem wf_storeBytes_of_checkRange {s : State} {base : Nat} {bs : List Byte} (hwf : Memory.wf s.config s.mem)
    (h : checkRange base bs.length = .ok ()) :
    Memory.wf (s.storeBytes base bs).config (s.storeBytes base bs).mem :=
  State.wf_storeBytes hwf ((inside_of_checkRange h).imp List.eq_nil_of_length_eq_zero id)

/-- Every instruction keeps memory in canonical form. -/
theorem exec_keeps_wf {i : Instr} {s t : State} (hwf : Memory.wf s.config s.mem) (h : exec i s = .next t) :
    Memory.wf t.config t.mem := by
  cases i
  case ret =>
    refine checked_keeps_wf hwf (fun p hp => ?_) h
    obtain ⟨hmem, hconfig⟩ := pop_memory hp
    rwa [← hmem, ← hconfig] at hwf
  case call nnn =>
    refine checked_keeps_wf hwf (fun u hu => ?_) h
    obtain ⟨hmem, hconfig⟩ := push_memory hu
    rwa [← hmem, ← hconfig] at hwf
  case drw | ldVxMem =>
    refine checked_keeps_wf hwf ?_ h
    exact fun _ _ => hwf
  case skp | sknp =>
    refine checked_keeps_wf hwf ?_ h
    exact fun _ _ => by simpa using hwf
  case ldB x =>
    refine checked_keeps_wf hwf ?_ h
    exact fun _ hr => wf_storeBytes_of_checkRange hwf hr
  case ldMemVx x =>
    refine checked_keeps_wf hwf (fun _ hr => ?_) h
    rw [← State.length_regsUpTo s x] at hr
    exact wf_storeBytes_of_checkRange hwf hr
  case seImm | sneImm | seReg | sneReg => cases h; simpa using hwf
  all_goals cases h; exact hwf

/-! ## The invariant, by the kind of state a step leaves -/

/-- A core that is not Faulted has no record (R44). -/
theorem fault_eq_none {s : State} (h : Inv s) (hmode : s.mode ≠ .faulted) : s.fault = none :=
  not_not.mp (mt h.recorded.mpr hmode)

/-- A loaded core that is not Faulted needs only canonical memory and no record. -/
theorem inv_of_loaded {t : State} (hwf : Memory.wf t.config t.mem) (hmode : t.mode ≠ .faulted)
    (hfault : t.fault = none) (hloaded : t.loaded = true) : Inv t where
  memory := hwf
  recorded := by simp [hmode, hfault]
  fits f hf := by rw [hfault] at hf; cases hf
  unloaded hunloaded := by rw [hloaded] at hunloaded; cases hunloaded

/-- A fault of a loaded core needs only canonical memory and a record that fits (R244). -/
theorem inv_takeFault {s : State} {f : Trap} {a : Word} {w : Option Word} (hwf : Memory.wf s.config s.mem)
    (hloaded : s.loaded = true) (hfits : RecordFits s ⟨f.kind, a, w, f.detail⟩) : Inv (takeFault s f a w) where
  memory := hwf
  recorded := by simp
  fits r hr := by cases hr; exact hfits
  unloaded hunloaded := by cases hloaded.symm.trans hunloaded

/-- Key flags, pixels and the schedule are no concern of the invariant. -/
theorem inv_setHost {s : State} (h : Inv s) (key : Vector Bool 16) (pix : Screen) (es : List Event) :
    Inv { s with key := key, pix := pix, events := es } :=
  ⟨h.memory, h.recorded, h.fits, h.unloaded⟩

/-- The state after Reset meets the invariant, whatever it was before (R290). -/
theorem inv_resetCore (s : State) : Inv (resetCore s) where
  memory := Memory.wf_nil _
  recorded := by simp [resetCore, State.reset]
  fits f hf := by cases hf
  unloaded _ := ⟨rfl, rfl, rfl, rfl, rfl, rfl, rfl, rfl, rfl, rfl⟩

/-- A timer at 0 stays there, so a tick keeps the invariant (R266). -/
theorem inv_timerTick {s : State} (h : Inv s) : Inv (timerTick s) where
  memory := h.memory
  recorded := h.recorded
  fits := h.fits
  unloaded hunloaded := by
    obtain ⟨hmem, hv, hi, hdt, hst, hrest⟩ := h.unloaded hunloaded
    exact ⟨hmem, hv, hi, by rw [timerTick, hdt]; rfl, by rw [timerTick, hst]; rfl, hrest⟩

/-- Completing a wait keeps the invariant: a core that waits has been loaded and has no record (R264). -/
theorem inv_completeWait {s : State} {r : Reg} (h : Inv s) (hmode : s.mode = .waitingForKey r) (k : Key) :
    Inv (completeWait s r k) := by
  have hnofault : s.mode ≠ .faulted := by rw [hmode]; exact Mode.noConfusion
  have hloaded : s.loaded = true := by
    refine Bool.of_not_eq_false fun hunloaded => ?_
    obtain ⟨-, -, -, -, -, -, -, -, hrunning, -⟩ := h.unloaded hunloaded
    rw [hmode] at hrunning; cases hrunning
  have hfault : s.fault = none := fault_eq_none h hnofault
  exact inv_of_loaded h.memory Mode.noConfusion hfault hloaded

/-- A key going down keeps the invariant (R262, R264). -/
theorem inv_keyDown {s : State} (h : Inv s) (k : Key) : Inv (keyDown s k) := by
  have hset : Inv (s.setKey k true) := inv_setHost h _ s.pix s.events
  rcases keyDown_cases s k with ⟨r, hmode, -, hdown⟩ | hdown <;> rw [hdown]
  · exact inv_completeWait (s := s.setKey k true) hset hmode k
  · exact hset

/-- A Load keeps the invariant, whether it fits or is reported (R292). -/
theorem inv_load {s : State} (h : Inv s) (hmode : s.mode = .running) (image : List Byte) :
    Inv (settle s (loadImage s image)) := by
  rcases settle_loadImage_cases s image with ⟨-, hsame⟩ | ⟨hfits, hcopied⟩
  · rwa [hsame]
  rw [hcopied]
  have hnofault : s.mode ≠ .faulted := by rw [hmode]; exact Mode.noConfusion
  exact inv_of_loaded (State.wf_storeBytes h.memory (.inr (by omega))) (by simpa using hnofault)
    (by simpa using fault_eq_none h hnofault) rfl

/-- A diagnostic pixel keeps the invariant, whether it is inside the screen or reported (R269). -/
theorem inv_diagSetPixel {s : State} (h : Inv s) (px py : Nat) : Inv (settle s (diagSetPixel s px py)) := by
  rw [diagSetPixel]
  cases portCell px py with
  | error r => exact h
  | ok c => exact inv_setHost h s.key _ s.events

/-- An instruction run by a Step keeps the invariant. -/
theorem inv_exec {i : Instr} {s t : State} (h : Inv s) (hmode : s.mode ≠ .faulted) (hloaded : s.loaded = true)
    (hexec : exec i s = .next t) : Inv t := by
  rcases exec_cases hexec with ⟨f, hf, rfl⟩ | ⟨hf, hframe⟩
  · exact inv_takeFault h.memory hloaded ⟨tableFault_kind hf, (BitVec.sub_add_cancel s.pc 2).symm⟩
  · obtain ⟨-, hwloaded, -, -, hwfault⟩ := not_writes_host s i
    exact inv_of_loaded (exec_keeps_wf h.memory hexec) (exec_mode_ne_faulted hmode hf hexec)
      ((hframe .fault hwfault).trans (fault_eq_none h hmode)) ((hframe .loaded hwloaded).trans hloaded)

/-- The body of a Step keeps the invariant: it takes a fault that fits, or runs an instruction (R141, R243). -/
theorem inv_stepBody {s t : State} (h : Inv s) (hmode : s.mode = .running) (hloaded : s.loaded = true)
    (hbody : stepBody s = .next t) : Inv t := by
  have hnofault : s.mode ≠ .faulted := by rw [hmode]; exact Mode.noConfusion
  have hfault : s.fault = none := fault_eq_none h hnofault
  have hadvanced : Inv { s with pc := s.pc + 2 } := inv_of_loaded h.memory hnofault hfault hloaded
  rcases stepBody_cases s with ⟨f, hfetch, -, hkind⟩ | ⟨w, hillegal, -⟩ | ⟨w, i, -, -, hrun⟩
  · obtain rfl := Host.Outcome.next.inj (hfetch.symm.trans hbody)
    exact inv_takeFault h.memory hloaded ⟨by simp [hkind], hkind, rfl⟩
  · obtain rfl := Host.Outcome.next.inj (hillegal.symm.trans hbody)
    exact inv_takeFault hadvanced.memory hloaded ⟨FaultKind.noConfusion, rfl⟩
  · exact inv_exec hadvanced hnofault hloaded (hrun.symm.trans hbody)

/-- Every enabled event keeps the invariant (R260). -/
theorem inv_event {s t : State} {e : Event} (h : Inv s) (he : enabled s e = true)
    (heffect : EventEffect stepBody s t e) : Inv t := by
  cases e
  case step =>
    obtain ⟨hmode, hloaded⟩ : s.mode = .running ∧ s.loaded = true := by simpa [enabled] using he
    exact inv_stepBody h hmode hloaded heffect
  case load image =>
    obtain ⟨hmode, -⟩ : s.mode = .running ∧ s.loaded = false := by simpa [enabled] using he
    have ht : t = settle s (loadImage s image) := heffect
    rw [ht]; exact inv_load h hmode image
  case timerTick => cases heffect; exact inv_timerTick h
  case keyDown k => cases heffect; exact inv_keyDown h k
  case keyUp k => cases heffect; exact inv_setHost h _ s.pix s.events
  case reset => cases heffect; exact inv_resetCore s
  case diagSetPixel px py =>
    obtain rfl : t = settle s (diagSetPixel s px py) := heffect
    exact inv_diagSetPixel h px py

end Sys2Proof.Machine

namespace Sys2Proof.Proofs

open Sys2Proof.Machine

/-- Settles O3: taking an event from the schedule keeps the invariant, and so does each event's effect. -/
theorem stepKeepsInvariant : Obligations.StepKeepsInvariant := by
  intro s t h hstep
  have htaken : Inv (takeEvent s).2 := takeEvent_state s ▸ inv_setHost h s.key s.pix s.events.tail
  obtain ⟨he, heffect⟩ := deliver_next hstep
  exact inv_event htaken he heffect

/-- Settles O2: the reset state is what Reset leaves of it. -/
theorem resetMeetsInvariant : Obligations.ResetMeetsInvariant := inv_resetCore State.reset

/-- Settles O1: Reset is always enabled, and unwritten memory reads as the font and zeros. -/
theorem resetEventRestoresCore : Obligations.ResetEventRestoresCore := by
  intro s es hs
  refine ⟨_, step_of_effect hs rfl rfl, ?reg, rfl, rfl, rfl, rfl, rfl, ?slot, ?key, ?pixel, fun _ => rfl, rfl, rfl, rfl,
    rfl, rfl, rfl⟩
  case reg => exact fun r => Vector.getElem_replicate r.isLt
  case slot => exact fun j => Vector.getElem_replicate j.isLt
  case key => exact fun k => Vector.getElem_replicate k.isLt
  case pixel => exact Screen.get_clear

end Sys2Proof.Proofs
end

section
/-! SUPPORT. The remaining statements about single instructions without memory: calls and returns, jumps and skips,
the ALU, the address register and the start of a key wait (41_control_flow.md, 42_alu.md, 43_index_memory.md,
44_keyboard_timer.md). -/

namespace Sys2Proof.Machine

@[simp] theorem zextByte_toNat (b : Byte) : (zextByte b).toNat = b.toNat :=
  BitVec.toNat_setWidth_of_le (by decide)

/-! ## Flag and result (R170) -/

@[simp] theorem readV_writeFlagAndResult_dest (s : State) (x : Reg) (f : Bool) (b : Byte) :
    (s.writeFlagAndResult x f b).readV x = b := by rw [State.readV_writeFlagAndResult, if_pos rfl]

theorem readV_writeFlagAndResult_vf (s : State) {x : Reg} (f : Bool) (b : Byte) (hx : x ≠ 15) :
    ((s.writeFlagAndResult x f b).readV 15).toNat = if f then 1 else 0 := by
  rw [State.readV_writeFlagAndResult, if_neg hx.symm, if_pos rfl, flagByte_toNat]

/-- The bit 8xy6 shifts out is the remainder of the halving (R180). -/
theorem shiftedOutRight_toNat (a : Byte) : (if shiftedOutRight a then 1 else 0) = a.toNat % 2 := by
  rw [shiftedOutRight, BitVec.getLsbD, Nat.testBit_zero]
  obtain h | h := Nat.mod_two_eq_zero_or_one a.toNat <;> simp [h]

/-- The bit 8xyE shifts out is the top bit (R182). -/
theorem shiftedOutLeft_toNat (a : Byte) : (if shiftedOutLeft a then 1 else 0) = a.toNat / 128 := by
  have htop : a.toNat / 128 < 2 := by have := a.isLt; omega
  rw [shiftedOutLeft, BitVec.getLsbD, Nat.testBit_eq_decide_div_mod_eq, Nat.mod_eq_of_lt htop]
  interval_cases a.toNat / 128 <;> rfl

/-- A difference of bytes, counted from the minuend (R179, R181). -/
theorem toNat_sub_byte (a b : Byte) : (a - b).toNat = (a.toNat + 256 - b.toNat) % 256 := by
  have := b.isLt
  rw [BitVec.toNat_sub]; congr 1; omega

/-! ## Addresses -/

/-- The glyph's address keeps 16 bits (R202, log 11). -/
theorem glyphAddr_toNat (c : Config) (b : Byte) : (glyphAddr c b).toNat = b.toNat * c.glyphHeight % 65536 := by
  rw [glyphAddr, BitVec.toNat_ofNat, fontBase, Nat.zero_add]

/-- For every height that R40 allows those bits hold the whole product. -/
theorem glyph_offset_lt {c : Config} (b : Byte) (h : 16 * c.glyphHeight ≤ 0x200) : b.toNat * c.glyphHeight < 65536 :=
  calc b.toNat * c.glyphHeight ≤ 255 * 32 := Nat.mul_le_mul (Nat.le_of_lt_succ b.isLt) (by omega)
    _ < 65536 := by decide

end Sys2Proof.Machine

namespace Sys2Proof.Proofs

open Sys2Proof.Machine

/-- Settles O15: a pop, or the fault the table gives an empty stack. -/
theorem retPopsReturnAddress : Obligations.RetPopsReturnAddress := by
  refine ⟨fun s j hsp => ⟨_, exec_ret_ok hsp, rfl, rfl, setSpPc_frame s _ _⟩, fun s hsp => ?_⟩
  exact ⟨_, exec_tableFault (if_pos hsp), rfl, rfl, raise_frame .ret _ s⟩

/-- Settles O16: a push and a jump, or the fault the table gives a full stack. -/
theorem callPushesReturnAddress : Obligations.CallPushesReturnAddress := by
  refine ⟨fun s nnn j hsp => ?_, fun s nnn hsp => ?_⟩
  · have hslot := (State.slot_setStack s j s.pc j.succ j).trans (if_pos rfl)
    exact ⟨_, exec_call_ok nnn hsp, zextAddr_toNat nnn, hslot, rfl, setStackPc_frame s j _ _ _⟩
  · exact ⟨_, exec_tableFault (if_pos hsp), rfl, rfl, raise_frame (.call nnn) _ s⟩

/-- Settles O19: the sum of a 12-bit and an 8-bit number does not reach 2^16. -/
theorem jpV0AddsRegisterZero : Obligations.JpV0AddsRegisterZero := by
  refine fun s nnn => ⟨_, rfl, ?sum, setPc_frame s _⟩
  case sum =>
    have haddr := nnn.isLt
    have hbyte := (s.readV 0).isLt
    rw [BitVec.toNat_add, zextAddr_toNat, zextByte_toNat, Nat.mod_eq_of_lt (by omega)]

/-- Settles O21: both are a conditional skip, 5xy0 on equality and 9xy0 on its negation. -/
theorem registerSkips : Obligations.RegisterSkips := by
  refine ⟨Laws.selects_row (.seReg 0 0), Laws.selects_row (.sneReg 0 0), fun s x y =>
    ⟨⟨_, rfl, ?equal, skipIf_frame s _⟩, ⟨_, rfl, ?unequal, skipIf_frame s _⟩⟩⟩
  case equal => simp only [skipIf_pc, decide_eq_true_eq]
  case unequal => simp only [skipIf_pc, decide_eq_true_eq, ne_eq, ite_not]

/-- Settles O22: both are a skip on the key's flag, ExA1 on its negation. -/
theorem keySkips : Obligations.KeySkips := by
  refine fun s x k hk => ⟨⟨_, exec_skp_ok hk, skipIf_pc s _, skipIf_frame s _⟩,
    ⟨_, exec_sknp_ok hk, ?up, skipIf_frame s _⟩⟩
  case up => rw [skipIf_pc]; cases s.keyAt k <;> rfl

/-- Settles O26: one register write each, of a bitwise operation. -/
theorem logicWorksBitwise : Obligations.LogicWorksBitwise := by
  refine fun s x y => ⟨⟨_, rfl, writeV_frame s x _, fun k => ?or⟩, ⟨_, rfl, writeV_frame s x _, fun k => ?and⟩,
    ⟨_, rfl, writeV_frame s x _, fun k => ?xor⟩⟩
  case or => rw [State.readV_writeV_self, BitVec.getLsbD_or]
  case and => rw [State.readV_writeV_self, BitVec.getLsbD_and]
  case xor => rw [State.readV_writeV_self, BitVec.getLsbD_xor]

/-- Settles O27: the result is written last, so it is there for every destination. -/
theorem addRegCarries : Obligations.AddRegCarries := by
  refine fun s x y => ⟨_, rfl, ?sum, fun hx => ?carry, writeFlagAndResult_frame s x _ _⟩
  case sum => rw [readV_writeFlagAndResult_dest, BitVec.toNat_add]
  case carry => rw [readV_writeFlagAndResult_vf s _ _ hx]; simp only [carryOut, decide_eq_true_eq, gt_iff_lt]

/-- Settles O28: as for the sum, with the two operands either way round. -/
theorem subtractionsSetNotBorrow : Obligations.SubtractionsSetNotBorrow := by
  refine fun s x y => ⟨⟨_, rfl, ?sub, fun hx => ?subFlag, writeFlagAndResult_frame s x _ _⟩,
    ⟨_, rfl, ?subn, fun hx => ?subnFlag, writeFlagAndResult_frame s x _ _⟩⟩
  case sub | subn => rw [readV_writeFlagAndResult_dest, toNat_sub_byte]
  case subFlag | subnFlag =>
    rw [readV_writeFlagAndResult_vf s _ _ hx]; simp only [notBorrow, decide_eq_true_eq]

/-- Settles O29: each shift is a division or a product, and the bit shifted out what they lose. -/
theorem shiftsMoveOneBit : Obligations.ShiftsMoveOneBit := by
  refine ⟨Laws.selects_row (.shr 0), Laws.selects_row (.shl 0), fun s x =>
    ⟨⟨_, rfl, ?half, fun hx => ?low, writeFlagAndResult_frame s x _ _⟩,
      ⟨_, rfl, ?double, fun hx => ?high, writeFlagAndResult_frame s x _ _⟩⟩⟩
  case half =>
    rw [readV_writeFlagAndResult_dest, BitVec.toNat_ushiftRight, Nat.shiftRight_eq_div_pow, Nat.pow_one]
  case low => rw [readV_writeFlagAndResult_vf s _ _ hx, shiftedOutRight_toNat]
  case double => rw [readV_writeFlagAndResult_dest, BitVec.toNat_shiftLeft, Nat.shiftLeft_eq, Nat.pow_one]
  case high => rw [readV_writeFlagAndResult_vf s _ _ hx, shiftedOutLeft_toNat]

/-- Settles O30: one register write, of the draw under the mask. -/
theorem rndMasksOneDraw : Obligations.RndMasksOneDraw := by
  refine fun s x kk => ⟨_, rfl, fun k => ?bits, rfl, drawRandom_writeV_frame s x _⟩
  case bits => rw [State.readV_writeV_self, BitVec.getLsbD_and]; rfl

/-- Settles O32: one write of `I`, of a 16-bit sum, which wraps. -/
theorem addIWrapsAtSixteenBits : Obligations.AddIWrapsAtSixteenBits := by
  refine fun s x => ⟨_, rfl, ?sum, setI_frame s _⟩
  case sum => rw [BitVec.toNat_add, zextByte_toNat]

/-- Settles O33: one write of `I`, of a product that stays below 2^16 for the heights R40 allows. -/
theorem ldFPointsAtGlyph : Obligations.LdFPointsAtGlyph := by
  refine fun s x => ⟨_, rfl, glyphAddr_toNat _ _, fun hheight => ?_, setI_frame s _⟩
  rw [glyphAddr_toNat, Nat.mod_eq_of_lt (glyph_offset_lt _ hheight)]

/-- Settles O40: the wait is one write of `Mode`. -/
theorem ldVxKStartsWait : Obligations.LdVxKStartsWait :=
  fun s x => ⟨_, rfl, rfl, setMode_frame s (.waitingForKey x)⟩

end Sys2Proof.Proofs
end

section
/-! SUPPORT. The memory instructions Fx33, Fx55 and Fx65 (43_index_memory.md R203 to R205), the fetch of what they store
(20_memory.md R77), the canonical form of memory, and the statements about them. -/

namespace Sys2Proof.Machine

/-! ## Reads after stores -/

/-- A stored byte reads back at its address. -/
theorem byteAt_storeBytes_at (s : State) (base : Nat) {bs : List Byte} {j : Nat} (hj : j < bs.length) :
    (s.storeBytes base bs).byteAt (base + j) = bs.getD j 0 := by
  rw [State.byteAt_storeBytes, if_pos (by omega), Nat.add_sub_cancel_left]

/-- What Fx55 stores (R204). -/
theorem byteAt_storeRegs (s : State) (base : Nat) {x r : Reg} (hr : r.val ≤ x.val) :
    (s.storeBytes base (s.regsUpTo x)).byteAt (base + r.val) = s.readV r := by
  have hlen : r.val < (s.regsUpTo x).length := by rw [State.length_regsUpTo]; omega
  rw [byteAt_storeBytes_at s base hlen, s.getD_regsUpTo hr]

/-- The digits of a byte, by index: hundreds, tens and units (R203). -/
theorem decimalDigits_toNat (b : Byte) {j d : Nat}
    (h : (j, d) ∈ [(0, b.toNat / 100), (1, b.toNat / 10 % 10), (2, b.toNat % 10)]) :
    j < 3 ∧ ((decimalDigits b).getD j 0).toNat = d := by
  have hb := b.isLt
  simp only [List.mem_cons, Prod.mk.injEq, List.not_mem_nil, or_false] at h
  obtain ⟨rfl, rfl⟩ | ⟨rfl, rfl⟩ | ⟨rfl, rfl⟩ := h
  · exact ⟨by decide, (BitVec.toNat_ofNat _ _).trans (Nat.mod_eq_of_lt (by omega))⟩
  · exact ⟨by decide, (BitVec.toNat_ofNat _ _).trans (Nat.mod_eq_of_lt (by omega))⟩
  · exact ⟨by decide, (BitVec.toNat_ofNat _ _).trans (Nat.mod_eq_of_lt (by omega))⟩

/-- What Fx33 stores (R203). -/
theorem byteAt_storeDigits (s : State) (base : Nat) (b : Byte) {j d : Nat}
    (h : (j, d) ∈ [(0, b.toNat / 100), (1, b.toNat / 10 % 10), (2, b.toNat % 10)]) :
    ((s.storeBytes base (decimalDigits b)).byteAt (base + j)).toNat = d := by
  obtain ⟨hj, hd⟩ := decimalDigits_toNat b h
  rw [byteAt_storeBytes_at s base (show j < (decimalDigits b).length from hj), hd]

/-! ## The canonical form is unique -/

/-- In a canonical memory an entry is what its address looks up: no other entry has the address. -/
theorem lookup_eq_some_iff {m : Memory} (h : m.Pairwise fun p q => p.1 < q.1) (a : Nat) (b : Byte) :
    Memory.lookup m a = some b ↔ (a, b) ∈ m := by
  induction m with
  | nil => simp [Memory.lookup]
  | cons q m ih =>
    obtain ⟨k, x⟩ := q
    obtain ⟨hk, hm⟩ := List.pairwise_cons.mp h
    rw [Memory.lookup, List.mem_cons, Prod.mk.injEq]
    split
    · rename_i hak
      have hlater : (a, b) ∉ m := fun hmem => absurd (hk _ hmem) (by simp [hak])
      simp [hak ▸ hlater, hak, eq_comm]
    · rename_i hak
      rw [ih hm]; simp [hak]

/-- In a canonical memory the listed bytes are those that read otherwise than unlisted ones. -/
theorem mem_iff_read {c : Config} {m : Memory} (h : Memory.wf c m) (a : Nat) (b : Byte) :
    (a, b) ∈ m ↔ Memory.read c m a = b ∧ b ≠ unlistedByte c a := by
  obtain ⟨hsorted, hentries⟩ := h
  rw [Memory.read]
  constructor
  · intro hmem
    rw [(lookup_eq_some_iff hsorted a b).mpr hmem]
    exact ⟨rfl, (hentries _ hmem).2⟩
  · rintro ⟨hread, hne⟩
    cases hlookup : Memory.lookup m a with
    | none => rw [hlookup] at hread; exact absurd hread.symm hne
    | some b' =>
      rw [hlookup] at hread
      obtain rfl : b' = b := hread
      exact (lookup_eq_some_iff hsorted a b').mp hlookup

/-- Rising addresses leave no entry twice. -/
theorem nodup_of_rising {m : Memory} (h : m.Pairwise fun p q => p.1 < q.1) : m.Nodup :=
  List.Pairwise.imp (S := (· ≠ ·)) (fun hlt heq => Nat.lt_irrefl _ (heq ▸ hlt)) h

end Sys2Proof.Machine

namespace Sys2Proof.Proofs

open Sys2Proof.Machine

/-- Settles O34: the checked range holds the three digits. -/
theorem ldBStoresDecimalDigits : Obligations.LdBStoresDecimalDigits := by
  intro s x hin
  exact ⟨_, exec_ldB_ok x hin, byteAt_storeDigits s _ _ (.head _), byteAt_storeDigits s _ _ (.tail _ (.head _)),
    byteAt_storeDigits s _ _ (.tail _ (.tail _ (.head _))), storeDigits_frame s _⟩

/-- Settles O35: the checked range holds the registers. -/
theorem ldMemVxStoresRegisters : Obligations.LdMemVxStoresRegisters :=
  fun s x hin => ⟨_, exec_ldMemVx_ok hin, fun _ hr => byteAt_storeRegs s _ hr, storeRegs_frame s x⟩

/-- Settles O36: the checked range is loaded, register by register. -/
theorem ldVxMemLoadsRegisters : Obligations.LdVxMemLoadsRegisters :=
  fun s x hin => ⟨_, exec_ldVxMem_ok hin, fun r hr => (s.getElem_regsFromMem x r).trans (if_pos hr),
    regsFromMem_frame s x⟩

/-- Settles O37: the load reads at the same `I` what the store left there. -/
theorem loadRestoresStoredRegisters : Obligations.LoadRestoresStoredRegisters := by
  intro s t x v hin hstore
  rw [exec_ldMemVx_ok hin] at hstore
  obtain rfl := Host.Outcome.next.inj hstore
  have hi : (s.storeBytes s.i.toNat (s.regsUpTo x)).i = s.i := State.storeBytes_i s _ _
  let loadState : State := { s.storeBytes s.i.toNat (s.regsUpTo x) with v := v }
  have hi' : loadState.i.toNat = s.i.toNat := congrArg BitVec.toNat hi
  refine ⟨_, exec_ldVxMem_ok (s := loadState) (by rw [hi']; exact hin), fun r => ⟨fun hr => ?_, fun hr => ?_⟩⟩
  · refine ((loadState.getElem_regsFromMem x r).trans (if_pos hr)).trans ?_
    rw [hi']
    exact byteAt_storeRegs s s.i.toNat hr
  · exact (loadState.getElem_regsFromMem x r).trans (if_neg (Nat.not_le.mpr hr))

/-- Settles O38: a store leaves `PC`, and the word access there reads the two bytes as stored. -/
theorem storedCodeIsFetched : Obligations.StoredCodeIsFetched := by
  refine ⟨fun s x hin hpc => ?regs, fun s x hin hpc => ?digits⟩
  case regs =>
    have hkept : (s.storeBytes s.i.toNat (s.regsUpTo x)).pc = s.pc := State.storeBytes_pc s _ _
    refine ⟨_, _, _, exec_ldMemVx_ok hin, hkept, by rw [hkept]; exact getWord_ok _ hpc, fun r hr => ⟨fun h => ?_,
      fun h => ?_⟩⟩
    · rw [h]; exact byteAt_storeRegs s _ hr
    · rw [h]; exact byteAt_storeRegs s _ hr
  case digits =>
    have hkept : (s.storeBytes s.i.toNat (decimalDigits (s.readV x))).pc = s.pc := State.storeBytes_pc s _ _
    refine ⟨_, _, _, exec_ldB_ok x hin, hkept, by rw [hkept]; exact getWord_ok _ hpc, fun j d hd => ⟨fun h => ?_,
      fun h => ?_⟩⟩
    · rw [h]; exact byteAt_storeDigits s _ _ hd
    · rw [h]; exact byteAt_storeDigits s _ _ hd

/-- Settles O50: two canonical memories that read alike have the same entries, each once and in rising order. -/
theorem canonicalMemoryIsUnique : Obligations.CanonicalMemoryIsUnique := by
  intro c m n hm hn hread
  have hsame (p : Host.Cell) : p ∈ m ↔ p ∈ n := by
    obtain ⟨a, b⟩ := p
    rw [mem_iff_read hm, mem_iff_read hn, hread]
  have hperm : m.Perm n := (List.perm_ext_iff_of_nodup (nodup_of_rising hm.1) (nodup_of_rising hn.1)).mpr hsame
  exact hperm.eq_of_pairwise (fun p q _ _ hpq hqp => absurd hpq (Nat.lt_asymm hqp)) hm.1 hn.1

end Sys2Proof.Proofs
end

section
/-! SUPPORT. Sprites (40_display.md R121 to R124): which sprites reach a pixel at all, and the statements about one draw
and about two draws at one place. -/

namespace Sys2Proof.Machine

/-- A sprite reaches some pixel exactly when one of its rows has a set bit (R122). -/
theorem exists_spriteCovers_iff (x0 y0 : Nat) (rows : List Byte) :
    (∃ px py, spriteCovers x0 y0 rows px py) ↔ ∃ row ∈ rows, row ≠ 0 := by
  constructor
  · rintro ⟨px, py, r, c, hr, -, hbit, -, -⟩
    rw [List.getD_eq_getElem rows 0 hr] at hbit
    exact ⟨rows[r], List.getElem_mem hr, fun hzero => by simp [hzero] at hbit⟩
  · rintro ⟨row, hrow, hne⟩
    obtain ⟨r, hr, rfl⟩ := List.mem_iff_getElem.mp hrow
    obtain ⟨k, hk, hbit⟩ : ∃ k, k < 8 ∧ rows[r].getLsbD k = true := by
      by_contra hnone
      refine hne (BitVec.eq_of_getLsbD_eq fun k hk => ?_)
      have hclear : rows[r].getLsbD k = false := Bool.eq_false_iff.mpr fun hset => hnone ⟨k, hk, hset⟩
      exact hclear.trans BitVec.getLsbD_zero.symm
    refine ⟨wrapX x0 (7 - k), wrapY y0 r, r, 7 - k, hr, by omega, ?_, rfl, rfl⟩
    rw [List.getD_eq_getElem rows 0 hr, show 7 - (7 - k) = k by omega, hbit]

section
variable {x0 y0 : Nat} {rows : List Byte} {pix : Screen} (h : rows.length ≤ 15)
include h

/-! The compositor's law, part by part (R122). -/
theorem get_drawSprite_of_covers {px : Fin 64} {py : Fin 32} (hc : spriteCovers x0 y0 rows px py) :
    Screen.get (drawSprite x0 y0 rows pix).1 px py = !Screen.get pix px py :=
  ((drawSprite_spec x0 y0 pix h).1 px py).1 hc

theorem get_drawSprite_of_not_covers {px : Fin 64} {py : Fin 32} (hc : ¬ spriteCovers x0 y0 rows px py) :
    Screen.get (drawSprite x0 y0 rows pix).1 px py = Screen.get pix px py :=
  ((drawSprite_spec x0 y0 pix h).1 px py).2 hc

theorem drawSprite_collides_iff : (drawSprite x0 y0 rows pix).2 = true ↔
    ∃ px py, spriteCovers x0 y0 rows px py ∧ Screen.get pix px py = true :=
  (drawSprite_spec x0 y0 pix h).2

/-- Two draws toggle a covered pixel twice (R123). -/
theorem drawSprite_drawSprite : (drawSprite x0 y0 rows (drawSprite x0 y0 rows pix).1).1 = pix := by
  refine screen_ext fun px py => ?_
  by_cases hc : spriteCovers x0 y0 rows px py
  · rw [get_drawSprite_of_covers h hc, get_drawSprite_of_covers h hc, Bool.not_not]
  · rw [get_drawSprite_of_not_covers h hc, get_drawSprite_of_not_covers h hc]

/-- The second draw collides exactly when it covers a pixel that was clear before the first (R123). -/
theorem second_draw_collides_iff : (drawSprite x0 y0 rows (drawSprite x0 y0 rows pix).1).2 = true ↔
    ∃ px py, spriteCovers x0 y0 rows px py ∧ Screen.get pix px py = false := by
  rw [drawSprite_collides_iff h]
  refine exists_congr fun px => exists_congr fun py => and_congr_right fun hc => ?_
  rw [get_drawSprite_of_covers h hc, Bool.not_eq_true']

/-- One of two draws collides exactly when the sprite reaches a pixel: it was set, or the first draw sets it. -/
theorem either_draw_collides_iff : ((drawSprite x0 y0 rows pix).2 = true ∨
    (drawSprite x0 y0 rows (drawSprite x0 y0 rows pix).1).2 = true) ↔ ∃ px py, spriteCovers x0 y0 rows px py := by
  rw [drawSprite_collides_iff h, second_draw_collides_iff h]
  constructor
  · rintro (⟨px, py, hc, -⟩ | ⟨px, py, hc, -⟩) <;> exact ⟨px, py, hc⟩
  · rintro ⟨px, py, hc⟩
    cases hpix : Screen.get pix px py with
    | true => exact .inl ⟨px, py, hc, hpix⟩
    | false => exact .inr ⟨px, py, hc, hpix⟩

end

end Sys2Proof.Machine

namespace Sys2Proof.Proofs

open Sys2Proof.Machine

/-- Settles O12: the compositor's law at the sprite Dxyn reads, with its collision in VF. -/
theorem drwXorsSpriteAndReportsCollision : Obligations.DrwXorsSpriteAndReportsCollision := by
  intro s x y n hin
  have hrows : (s.loadBytes s.i.toNat n.val).length ≤ 15 := by rw [State.length_loadBytes]; omega
  let out := drawSprite (s.readV x).toNat (s.readV y).toNat (s.loadBytes s.i.toNat n.val) s.pix
  have hvf : (s.drawn x y n).readV 15 = flagByte out.2 := State.readV_writeV_self _ vf _
  refine ⟨_, exec_drw_ok x y hin, fun px py => (drawSprite_spec _ _ s.pix hrows).1 px py, ?values, ?collision,
    drawn_frame s x y n⟩
  case values => rw [hvf]; exact flagByte_values out.2
  case collision =>
    rw [hvf, flagByte_eq_one, drawSprite_collides_iff hrows]
    exact exists_congr fun px => exists_congr fun py => and_comm

/-- Settles O13: a covered pixel is toggled twice and is set before one of the two draws; on a clear screen it is
before the second. -/
theorem spriteDrawnTwiceRestoresScreen : Obligations.SpriteDrawnTwiceRestoresScreen := by
  intro x0 y0 rows pix h
  refine ⟨drawSprite_drawSprite h, (either_draw_collides_iff h).trans (exists_spriteCovers_iff x0 y0 rows), ?clear⟩
  case clear =>
    rintro rfl
    have hfirst : (drawSprite x0 y0 rows Screen.clear).2 = false := by
      refine Bool.eq_false_iff.mpr fun hcollides => ?_
      obtain ⟨px, py, -, hset⟩ := (drawSprite_collides_iff h).mp hcollides
      rw [Screen.get_clear] at hset; cases hset
    refine ⟨hfirst, ?_⟩
    rw [second_draw_collides_iff h, ← exists_spriteCovers_iff x0 y0 rows]
    simp only [Screen.get_clear, and_true]

end Sys2Proof.Proofs
end

section
/-! SUPPORT. The host's events but Step and Reset (60_exceptions.md R262 to R273, 70_reset_and_hazards.md R292): what
each leaves unchanged, and the statements about keys, timers, waits, Load and the screen ports. -/

namespace Sys2Proof.Machine

/-! ## Frames of the events -/

theorem timerTick_frame (s : State) : Frame s (timerTick s) (fun p => p = .dt ∨ p = .st) :=
  Frame.trans (setDt_frame s (tickDown s.dt)) (setSt_frame _ (tickDown s.st))

theorem setKey_frame (s : State) (k : Key) (b : Bool) : Frame s (s.setKey k b) (fun p => p = .key k) := by
  intro p hp
  cases p with
  | key k' =>
    have hk : k' ≠ k := fun h => hp (by rw [h])
    exact (State.keyAt_setKey s k b k').trans (if_neg hk)
  | _ => rfl

@[simp] theorem State.keyAt_setKey_self (s : State) (k : Key) (b : Bool) : (s.setKey k b).keyAt k = b := by
  rw [State.keyAt_setKey, if_pos rfl]

theorem completeWait_frame (s : State) (r : Reg) (k : Key) :
    Frame s (completeWait s r k) (fun p => p = .reg r ∨ p = .mode) :=
  Frame.trans (writeV_frame s r _) (setMode_frame _ .running)

/-- The register a completed wait leaves the key's index in (R264). -/
theorem readV_completeWait (s : State) (r : Reg) (k : Key) : ((completeWait s r k).readV r).toNat = k.val := by
  have hk := k.isLt
  have hread : (completeWait s r k).readV r = BitVec.ofNat 8 k.val := State.readV_writeV_self s r _
  rw [hread, BitVec.toNat_ofNat, Nat.mod_eq_of_lt (by omega)]

/-- The frame of a key that completes a wait (R264). -/
theorem keyWait_frame (s : State) (r : Reg) (k : Key) :
    Frame s (completeWait (s.setKey k true) r k) (fun p => p = .key k ∨ p = .reg r ∨ p = .mode) :=
  Frame.trans (setKey_frame s k true) (completeWait_frame _ r k)

/-- The frame of one pixel. -/
theorem putPixel_frame (s : State) (px : Fin 64) (py : Fin 32) (b : Bool) :
    Frame s { s with pix := Screen.put s.pix px py b } (fun p => p = .pixel px py) := by
  intro p hp
  cases p with
  | pixel qx qy =>
    have hne : ¬ (qx = px ∧ qy = py) := fun h => hp (by rw [h.1, h.2])
    exact (Screen.get_put s.pix px py b qx qy).trans (if_neg hne)
  | _ => rfl

/-- The frame of an event is that of its effect, with the schedule beside it. -/
theorem frame_after_event {s t : State} {es : List Event} {may : Part → Prop}
    (h : Frame { s with events := es } t may) : Frame s t (fun p => may p ∨ p = .events) :=
  Frame.mono (Frame.trans (setEvents_frame s es) h) fun _ => Or.symm

/-! ## Enabling -/

/-- In a key wait neither a Step nor a Load is enabled (R260). -/
theorem not_enabled_of_waiting {s : State} {r : Reg} (h : s.mode = .waitingForKey r) :
    enabled s .step = false ∧ ∀ image, enabled s (.load image) = false := by
  simp [enabled, h]

/-! ## Timers -/

/-- After `n` ticks a timer of `ST` has `ST - n` left (R266). -/
theorem st_iterate_timerTick (s : State) (n : Nat) : (timerTick^[n] s).st.toNat = s.st.toNat - n := by
  induction n with
  | zero => rfl
  | succ n ih =>
    rw [Function.iterate_succ_apply', show (timerTick (timerTick^[n] s)).st = tickDown (timerTick^[n] s).st from rfl,
      toNat_tickDown, ih, Nat.sub_sub]

/-! ## Screen ports -/

/-- Inside the screen DiagSetPixel sets its pixel (R269). -/
theorem diagSetPixel_ok (s : State) (px : Fin 64) (py : Fin 32) :
    diagSetPixel s px.val py.val = .ok { s with pix := Screen.put s.pix px py true } := by
  rw [diagSetPixel, portCell_ok]; rfl

/-- Outside it reports (R269, D25). -/
theorem diagSetPixel_error (s : State) {px py : Nat} (h : 64 ≤ px ∨ 32 ≤ py) :
    diagSetPixel s px py = .error .outOfBounds := by
  rw [diagSetPixel, portCell_error h]; rfl

/-- A diagnostic pixel changes pixels alone, whether it is inside the screen or reported. -/
theorem settle_diagSetPixel_frame (s : State) (px py : Nat) :
    Frame s (settle s (diagSetPixel s px py)) (fun p => ∃ px py, p = .pixel px py) := by
  rw [diagSetPixel]
  cases portCell px py with
  | error r => intro p _; cases p <;> rfl
  | ok c => exact Frame.mono (putPixel_frame s c.1 c.2 true) fun p hp => ⟨c.1, c.2, hp⟩

/-! ## Load -/

/-- The frame of a Load that fits (R292). -/
theorem loaded_frame (s : State) (image : List Byte) :
    Frame s { s.storeBytes 0x200 image with pc := 0x200, loaded := true }
      (fun p => p = .pc ∨ p = .loaded ∨ ∃ j, j < image.length ∧ p = .byte (0x200 + j)) := by
  intro p hp
  have hstore := storeBytes_frame s 0x200 image p fun h => hp (.inr (.inr h))
  cases p with
  | pc => exact absurd (.inl rfl) hp
  | loaded => exact absurd (.inr (.inl rfl)) hp
  | _ => exact hstore

/-! ## A wait -/

/-- What an event other than Reset can do in a key wait (R273): a tick, a key, a diagnostic pixel, or its end. -/
theorem wait_event_frame {s t : State} {e : Event} {r : Reg} (hmode : s.mode = .waitingForKey r) (hreset : e ≠ .reset)
    (he : enabled s e = true) (heffect : EventEffect stepBody s t e) :
    Frame s t (fun p => p = .dt ∨ p = .st ∨ (∃ k, p = .key k) ∨ (∃ px py, p = .pixel px py) ∨ p = .reg r ∨
      p = .mode) ∧
    ((t.mode = .waitingForKey r ∧ t.readV r = s.readV r) ∨
      (t.mode = .running ∧ ∃ k, e = .keyDown k ∧ s.keyAt k = false)) := by
  obtain ⟨hstep, hload⟩ := not_enabled_of_waiting hmode
  cases e
  case step => rw [hstep] at he; cases he
  case load image => rw [hload image] at he; cases he
  case reset => exact absurd rfl hreset
  case timerTick =>
    cases heffect
    refine ⟨Frame.mono (timerTick_frame s) ?_, .inl ⟨hmode, rfl⟩⟩
    rintro p (h | h) <;> simp [h]
  case keyUp k =>
    cases heffect
    refine ⟨Frame.mono (setKey_frame s k false) ?_, .inl ⟨hmode, rfl⟩⟩
    rintro p h; simp [h]
  case diagSetPixel px py =>
    have ht : t = settle s (diagSetPixel s px py) := heffect
    have hframe := settle_diagSetPixel_frame s px py
    rw [← ht] at hframe
    refine ⟨Frame.mono hframe ?_, .inl ⟨(hframe .mode (by simp)).trans hmode, hframe (.reg r) (by simp)⟩⟩
    rintro p h; simp [h]
  case keyDown k =>
    have ht : t = keyDown s k := heffect
    rcases keyDown_cases s k with ⟨r', hmode', hkey, hdown⟩ | hdown
    · obtain rfl : r = r' := Mode.waitingForKey.inj (hmode.symm.trans hmode')
      rw [ht, hdown]
      refine ⟨Frame.mono (keyWait_frame s r k) ?_, .inr ⟨rfl, k, rfl, hkey⟩⟩
      rintro p (h | h | h) <;> simp [h]
    · rw [ht, hdown]
      refine ⟨Frame.mono (setKey_frame s k true) ?_, .inl ⟨hmode, rfl⟩⟩
      rintro p h; simp [h]

end Sys2Proof.Machine

namespace Sys2Proof.Proofs

open Sys2Proof.Machine

/-- Settles O41: a KeyDown by its two cases, and a KeyUp, which is one flag. -/
theorem keyEventsWriteKeysAndCompleteWaits : Obligations.KeyEventsWriteKeysAndCompleteWaits := by
  refine ⟨fun s es k r hs hmode hkey => ?wait, fun s es k hs hmode hplain => ?down, fun s es k hs hmode => ?up⟩
  case wait =>
    have hnofault : s.mode ≠ .faulted := by rw [hmode]; exact Mode.noConfusion
    have hdown := keyDown_wait (s := { s with events := es }) hmode hkey
    refine ⟨_, step_of_effect hs (decide_eq_true hnofault) hdown.symm, State.keyAt_setKey_self _ k true,
      readV_completeWait _ r k, rfl, rfl, ?_⟩
    refine Frame.mono (frame_after_event (keyWait_frame { s with events := es } r k)) ?_
    rintro p ((h | h | h) | h) <;> simp [h]
  case down =>
    have hdown := keyDown_plain (s := { s with events := es }) hplain
    exact ⟨_, step_of_effect hs (decide_eq_true hmode) hdown.symm, State.keyAt_setKey_self _ k true, rfl,
      frame_after_event (setKey_frame { s with events := es } k true)⟩
  case up =>
    exact ⟨_, step_of_effect hs (decide_eq_true hmode) rfl, State.keyAt_setKey_self _ k false, rfl,
      frame_after_event (setKey_frame { s with events := es } k false)⟩

/-- Settles O42: with no event listed a Step would be next, and it is not enabled; any other event by its effect. -/
theorem waitHoldsTheCore : Obligations.WaitHoldsTheCore := by
  intro s t r hmode hreset hstep
  obtain ⟨he, heffect⟩ := deliver_next hstep
  rw [enabled_takeEvent] at he
  cases hs : s.events with
  | nil =>
    rw [takeEvent_nil hs, (not_enabled_of_waiting hmode).1] at he; cases he
  | cons e es =>
    rw [takeEvent_cons hs] at he heffect
    have hne : e ≠ .reset := fun h => hreset es (h ▸ hs)
    obtain ⟨hframe, hend⟩ := wait_event_frame (s := { s with events := es }) hmode hne
      ((enabled_setEvents s es e).trans he) heffect
    refine ⟨Frame.mono (frame_after_event hframe) ?_, hend.imp id fun ⟨hrunning, k, hk, hup⟩ => ?_⟩
    · rintro p ((h | h | h | h | h | h) | h) <;> simp [h]
    · exact ⟨hrunning, k, es, by rw [hk], hup⟩

/-- Settles O43: a tick is two timer writes, wherever it is enabled. -/
theorem timerTickCountsDown : Obligations.TimerTickCountsDown := by
  intro s es hs hmode
  refine ⟨_, step_of_effect hs ((timerEnabled_iff s).mpr hmode) rfl, toNat_tickDown s.dt, toNat_tickDown s.st, rfl, ?_⟩
  refine Frame.mono (frame_after_event (timerTick_frame { s with events := es })) ?_
  rintro p ((h | h) | h) <;> simp [h]

/-- Settles O44: after `n` ticks `ST - n` is left of the timer. -/
theorem soundLastsAsManyTicksAsItsTimer : Obligations.SoundLastsAsManyTicksAsItsTimer := by
  intro s n
  rw [soundOn, decide_eq_true_eq, st_iterate_timerTick, Nat.sub_pos_iff_lt]

/-- Settles O45: the length decides, before anything is written. -/
theorem loadCopiesImageOrReports : Obligations.LoadCopiesImageOrReports := by
  intro s es image hs hmode hloaded
  have he : enabled s (.load image) = true := by simp [enabled, hmode, hloaded]
  have hstep := step_of_effect hs he rfl
  rcases settle_loadImage_cases { s with events := es } image with ⟨hlong, hsame⟩ | ⟨hfits, hcopied⟩
  · rw [hsame] at hstep
    refine ⟨_, hstep, rfl, fun hshort => by omega, fun _ => ⟨?_, setEvents_frame s es⟩⟩
    rw [hostReport, loadImage_error hlong]; rfl
  · rw [hcopied] at hstep
    refine ⟨_, hstep, State.storeBytes_events _ _ _, fun _ => ⟨rfl, rfl, fun j hj => ?_, ?_, ?_⟩,
      fun hlong => by omega⟩
    · exact byteAt_storeBytes_at { s with events := es } 0x200 hj
    · rw [hostReport, loadImage_ok hfits]; rfl
    · refine Frame.mono (frame_after_event (loaded_frame { s with events := es } image)) ?_
      rintro p ((h | h | h) | h) <;> simp [h]

/-- Settles O46: the ports' one check, passed inside the screen and failed outside. -/
theorem screenPortsDoNotWrap : Obligations.ScreenPortsDoNotWrap := by
  refine ⟨fun s px py => ?inside, fun s px py hout => ?outside, fun s es px py hs hmode => ?set,
    fun s es px py hs hmode hout => ?report⟩
  case inside => rw [isSet, portCell_ok]; rfl
  case outside => rw [isSet, portCell_error hout]; rfl
  case set =>
    have hstep := step_of_effect hs (decide_eq_true hmode) rfl
    rw [diagSetPixel_ok] at hstep
    refine ⟨_, hstep, (Screen.get_put s.pix px py true px py).trans (if_pos ⟨rfl, rfl⟩), rfl, ?_,
      frame_after_event (putPixel_frame { s with events := es } px py true)⟩
    rw [hostReport, diagSetPixel_ok]; rfl
  case report =>
    have hstep := step_of_effect hs (decide_eq_true hmode) rfl
    rw [diagSetPixel_error _ hout] at hstep
    refine ⟨_, hstep, rfl, ?_, setEvents_frame s es⟩
    rw [hostReport, diagSetPixel_error s hout]; rfl

end Sys2Proof.Proofs
end
